-- ==== Sys2Proof/Config.lean ====
section
/-!
DEFINITION. The implementation parameters LMAX, TMAX and OQ_DEPTH (00_scope.md R14, R15, R16).
The spec says "a parameter the model takes as an argument". The host fixes the types of `exec` and `step`,
so the argument travels inside State (assumption log 1); no step changes it (70_reset_and_hazards.md R242).
The spec leaves no value of the machine undefined, so this file holds no opaque constant.
-/

namespace Sys2Proof

/-- What an implementation fixes when the unit is built (R242). -/
structure Params where
  /-- LMAX, the largest IV length (R14). -/
  lmax : Nat
  /-- TMAX, the largest number of table keys (R15). -/
  tmax : Nat
  /-- OQ_DEPTH, the output queue's capacity; `none` is the value `unbounded` (R16). -/
  oqDepth : Option Nat
  deriving DecidableEq, Repr

/-- The parameters of the spec's test vectors: LMAX = 8, TMAX = 16, OQ_DEPTH = unbounded
(95_test_vectors.md, Conventions). DESIGN CHOICE, assumption log 1: only `State.reset` uses them. -/
def Params.vectors : Params := { lmax := 8, tmax := 16, oqDepth := none }

end Sys2Proof
end

