-- ==== Sys2Proof/Word.lean ====
section
/-!
DEFINITION. The two word types of the SUBXOR unit: a character and a command word.
-/

namespace Sys2Proof

/-- A character: a Unicode code point held in CW = 21 bits (00_scope.md R12). -/
abbrev CodePoint := BitVec 21

/-- A command word: 64 bits, the one length there is (30_encoding.md R80, R81). -/
abbrev Command := BitVec 64

/-- U+0000, the padding character (41_segmentation_padding.md R130). -/
def nul : CodePoint := 0#21

end Sys2Proof
end

