-- ==== Sys2Proof/Syntax.lean ====
section
/-!
DEFINITION. The commands of the SUBXOR unit, one constructor per row of spec/opcode_table.json
(30_encoding.md R87), and the decoder's reasons to reject a word.
-/

namespace Sys2Proof

/-- A command. Field types carry exactly the bits the encoding gives each operand (R80, R82, R85, R86), so every
term is well-formed; a character operand need not be a Unicode scalar value (R82). -/
inductive Instr where
  /-- NOP (43_control_and_host.md R180). -/
  | nop
  /-- CLEAR (43_control_and_host.md R181). -/
  | clear
  /-- KEYLINE (40_table_and_iv.md R110): the token count saturated at 3, the two one-character marks, the source
  character A and the target character B (30_encoding.md R85). -/
  | keyline (ntok : BitVec 2) (s0 s1 : Bool) (a b : CodePoint)
  /-- IVCHAR (40_table_and_iv.md R114): the next IV character A. -/
  | ivchar (a : CodePoint)
  /-- START.ENC (42_chain_cipher.md R150, MODE = 0). -/
  | startEnc
  /-- START.DEC (42_chain_cipher.md R150, MODE = 1). -/
  | startDec
  /-- DATA (41_segmentation_padding.md R132): the next payload character A. -/
  | data (a : CodePoint)
  /-- DATAERR (41_segmentation_padding.md R135). -/
  | dataerr
  /-- END (41_segmentation_padding.md R137). -/
  | endRun
  deriving DecidableEq, Repr

/-- Why the decoder rejects a word (30_encoding.md R89). Both are ILLEGAL_COMMAND to the unit (R206). -/
inductive DecodeError where
  /-- The opcode is one of 0x8 to 0xF. -/
  | reservedOpcode
  /-- The opcode is one of 0x0 to 0x7 and a must-be-zero field is not zero (R83). -/
  | mustBeZero
  deriving DecidableEq, Repr

end Sys2Proof
end

