-- ==== Sys2Proof/Machine/State.lean ====
section
/-!
DEFINITION. The state of the SUBXOR unit and of its host's side of the ports, as plain data (10_state.md), with the
reasons a step can stop and the state after reset (70_reset_and_hazards.md R240).
-/

namespace Sys2Proof.Machine

/-- PHASE (10_state.md R22). -/
inductive Phase where
  | load | run | done | error
  deriving DecidableEq, Repr

/-- MODE (10_state.md R23). -/
inductive Mode where
  | enc | dec
  deriving DecidableEq, Repr

/-- The error codes (60_exceptions.md R200); their numbers are `errorNumber` in Flags.lean. -/
inductive ErrorCode where
  | malformedKeyLine | emptyIv | nonUtf8Payload | ambiguousReverseMapping | resultNotScalar
  | inputNotScalar | illegalCommand | sequence | tableFull | ivTooLong
  deriving DecidableEq, Repr

/-- The substitution table FWD: (key, value) pairs with strictly rising keys (10_state.md R25; assumption log 8). -/
abbrev Table := List (CodePoint × CodePoint)

/-- What the host can do at the ports (43_control_and_host.md R189). The model's own type, assumption log 2. -/
inductive HostAction where
  /-- Present a 64-bit word at the command port. -/
  | write (w : Command)
  /-- REGRD: read the register with this 8-bit index (R183). -/
  | read (n : BitVec 8)
  /-- OUTPOP: pop one output character (R185). -/
  | pop
  /-- Assert the reset signal (70_reset_and_hazards.md R241). -/
  | resetSignal
  deriving DecidableEq, Repr

/-- What the unit gives back to the last action (R189, column "unit gives back"). -/
inductive Reply where
  /-- A command write or a reset gives nothing back. -/
  | nothing
  /-- The 64-bit value of a register read. -/
  | register (v : BitVec 64)
  /-- The 22-bit output word of a pop (30_encoding.md R90). -/
  | output (o : BitVec 22)
  deriving DecidableEq, Repr

/-- Why the machine stops. Every error of the spec is a next state with PHASE = ERROR, not one of these.
Both are SAFE and raised by ProcessBlock alone, in states no run reaches (assumption log 6). -/
inductive Fault where
  /-- ProcessBlock was given a block, or an FB, that does not hold exactly L characters; 42_chain_cipher.md R162 and
  10_state.md R29 say each has exactly L, so the spec gives this case no meaning. -/
  | laneCountUndefined
  /-- A block in mode DEC with a table that is not injective; 10_state.md R26 defines no INV for it, and START.DEC
  refuses such a table (42_chain_cipher.md R151). -/
  | inverseUndefined
  deriving DecidableEq, Repr

/-- Why a step gives an instruction no meaning. -/
inductive Refusal where
  /-- Raised by an arm of `exec` for an instruction not modelled yet. SAFE. No arm of this model uses it. -/
  | notModelled (mnemonic : String)
  deriving DecidableEq, Repr

/-- The machine. The first sixteen fields are the record S of 10_state.md; `params` are the parameters of
00_scope.md R14 to R16 (assumption log 1); the last four are the model's own view of the ports (assumption log 2). -/
structure State where
  /-- PHASE, R22. -/
  phase : Phase
  /-- MODE, R23. -/
  mode : Mode
  /-- RUN_OK, R32. -/
  runOk : Bool
  /-- IV, R24; its length is IVLEN, the block length L. -/
  iv : List CodePoint
  /-- FWD, R25; its length is TCOUNT. -/
  fwd : Table
  /-- BUF, R28; its length is BFILL. -/
  buf : List CodePoint
  /-- FB, R29; the empty sequence is "no value" (R243, 93_implementation_defined.md I16; assumption log 5). -/
  fb : List CodePoint
  /-- OQ, R30, oldest character first; its length is OQCOUNT. -/
  oq : List CodePoint
  /-- NIN, R31. -/
  nin : BitVec 64
  /-- NBLK, R31. -/
  nblk : BitVec 64
  /-- NOUT, R31. -/
  nout : BitVec 64
  /-- NPAD, R31; bounded by LMAX, never wraps (00_scope.md R17). -/
  npad : Nat
  /-- ERR, R33. -/
  err : BitVec 8
  /-- ERRCMD, R33. -/
  errcmd : Command
  /-- ERRVAL, R33. -/
  errval : CodePoint
  /-- ERRPOS, R33. -/
  errpos : BitVec 32
  /-- LMAX, TMAX and OQ_DEPTH. -/
  params : Params
  /-- The word that stands at the command port, presented and not yet accepted (43_control_and_host.md R186). -/
  port : Option Command
  /-- The host's coming actions, first one first (20_memory.md R68). -/
  host : List HostAction
  /-- What the unit gave back to the last action (R189). -/
  reply : Reply
  /-- The characters popped since the last reset or CLEAR, and so since START (R188): OQ is empty in phase LOAD (10_state.md R36). -/
  popped : List CodePoint
  deriving DecidableEq, Repr

/-- ResetState for a unit built with parameters `p` (70_reset_and_hazards.md R240), nothing at the ports. -/
def State.resetWith (p : Params) : State where
  phase := .load
  mode := .enc
  runOk := false
  iv := []
  fwd := []
  buf := []
  fb := []
  oq := []
  nin := 0
  nblk := 0
  nout := 0
  npad := 0
  err := 0
  errcmd := 0
  errval := 0
  errpos := 0
  params := p
  port := none
  host := []
  reply := .nothing
  popped := []

/-- The machine right after reset, with the parameters of the spec's test vectors (assumption log 1). -/
def State.reset : State := State.resetWith Params.vectors

end Sys2Proof.Machine
end

