-- ==== Sys2Proof/Machine/Flags.lean ====
section
/-!
DEFINITION. The status register and the numbers behind PHASE, MODE and ERR. The unit has no condition codes
(10_state.md R34).
-/

namespace Sys2Proof.Machine

/-- The value of PHASE (10_state.md R22). -/
def phaseBits : Phase → BitVec 2
  | .load => 0
  | .run => 1
  | .done => 2
  | .error => 3

/-- The value of MODE (10_state.md R23). -/
def modeBit : Mode → BitVec 1
  | .enc => 0
  | .dec => 1

/-- The value of ERR for each error (60_exceptions.md R200). -/
def errorNumber : ErrorCode → BitVec 8
  | .malformedKeyLine => 1
  | .emptyIv => 2
  | .nonUtf8Payload => 3
  | .ambiguousReverseMapping => 4
  | .resultNotScalar => 5
  | .inputNotScalar => 6
  | .illegalCommand => 7
  | .sequence => 8
  | .tableFull => 9
  | .ivTooLong => 10

/-- STATUS: zero in 63:16, ERR in 15:8, zero in 7:4, RUN_OK in 3, MODE in 2, PHASE in 1:0 (10_state.md R34). -/
def statusWord (s : State) : BitVec 64 :=
  0#48 ++ s.err ++ 0#4 ++ BitVec.ofBool s.runOk ++ modeBit s.mode ++ phaseBits s.phase

end Sys2Proof.Machine
end

