-- ==== Sys2Proof/WellFormed.lean ====
section
/-!
DEFINITION. Well-formed command words (30_encoding.md R88) and well-formed parameters (00_scope.md R14 to R16).
An `Instr` needs no check of its own: its field types are the encoding's fields.
-/

namespace Sys2Proof

/-- `WF(W)` of 30_encoding.md R88, in the rule's own form: one disjunct per group of opcodes. -/
abbrev WellFormedWord (w : Command) : Prop :=
  let op := w.extractLsb' 60 4
  ((op = 0x0#4 ∨ op = 0x1#4 ∨ op = 0x6#4 ∨ op = 0x7#4) ∧ w.extractLsb' 0 60 = 0#60)
    ∨ (op = 0x2#4 ∧ w.extractLsb' 42 14 = 0#14)
    ∨ ((op = 0x3#4 ∨ op = 0x5#4) ∧ w.extractLsb' 21 39 = 0#39)
    ∨ (op = 0x4#4 ∧ w.extractLsb' 57 3 = 0#3 ∧ w.extractLsb' 0 56 = 0#56)

/-- The rows of spec/opcode_table.json as (mask, match) pairs, in the table's order. -/
def opcodeTable : List (Command × Command) :=
  [(0xFFFFFFFFFFFFFFFF#64, 0x0000000000000000#64),
   (0xFFFFFFFFFFFFFFFF#64, 0x1000000000000000#64),
   (0xF0FFFC0000000000#64, 0x2000000000000000#64),
   (0xFFFFFFFFFFE00000#64, 0x3000000000000000#64),
   (0xFFFFFFFFFFFFFFFF#64, 0x4000000000000000#64),
   (0xFFFFFFFFFFFFFFFF#64, 0x4100000000000000#64),
   (0xFFFFFFFFFFE00000#64, 0x5000000000000000#64),
   (0xFFFFFFFFFFFFFFFF#64, 0x6000000000000000#64),
   (0xFFFFFFFFFFFFFFFF#64, 0x7000000000000000#64)]

/-- The ranges of the parameters: `1 <= LMAX < 2^32` (R14), `TMAX < 2^32` (R15), and `OQ_DEPTH >= LMAX` unless
unbounded (R16). -/
abbrev Params.WF (p : Params) : Prop :=
  1 ≤ p.lmax ∧ p.lmax < 2 ^ 32 ∧ p.tmax < 2 ^ 32 ∧ ∀ d ∈ p.oqDepth, p.lmax ≤ d

end Sys2Proof
end

