-- ==== Sys2Proof/Decode.lean ====
section
/-!
DEFINITION. Decoding a command word, total, rejecting by name, and encoding a command (30_encoding.md R80 to R89).
A command is one 64-bit parallel word, bit n of the word being bit n of the value (20_memory.md R63), so there is
no byte order to fix.
-/

namespace Sys2Proof

/-- OP, bits 63:60 (R80). -/
def opField (w : Command) : BitVec 4 := w.extractLsb' 60 4

/-- SUB, bits 59:56 (R80). -/
def subField (w : Command) : BitVec 4 := w.extractLsb' 56 4

/-- RSVD, bits 55:42 (R80). -/
def rsvdField (w : Command) : BitVec 14 := w.extractLsb' 42 14

/-- B, bits 41:21: `charB` of R82. -/
def charB (w : Command) : CodePoint := w.extractLsb' 21 21

/-- A, bits 20:0: `charA` of R82. -/
def charA (w : Command) : CodePoint := w.extractLsb' 0 21

/-- NTOK, bits 59:58 of KEYLINE (R85). -/
def ntokField (w : Command) : BitVec 2 := w.extractLsb' 58 2

/-- The must-be-zero check of R83: answer the command if its unused fields are zero. -/
def ifZero (unused : Bool) (i : Instr) : Except DecodeError Instr :=
  if unused then .ok i else .error .mustBeZero

/-- The decoder: the opcode map of R87 with its "must be zero" column. -/
def decode (w : Command) : Except DecodeError Instr :=
  let sub0 := subField w == 0
  let rsvd0 := rsvdField w == 0
  let b0 := charB w == 0
  let a0 := charA w == 0
  match (opField w).toNat with
  | 0x0 => ifZero (sub0 && rsvd0 && b0 && a0) .nop
  | 0x1 => ifZero (sub0 && rsvd0 && b0 && a0) .clear
  | 0x2 => ifZero rsvd0 (.keyline (ntokField w) (w.getLsbD 57) (w.getLsbD 56) (charA w) (charB w))
  | 0x3 => ifZero (sub0 && rsvd0 && b0) (.ivchar (charA w))
  | 0x4 => ifZero (w.extractLsb' 57 3 == 0 && rsvd0 && b0 && a0) (if w.getLsbD 56 then .startDec else .startEnc)
  | 0x5 => ifZero (sub0 && rsvd0 && b0) (.data (charA w))
  | 0x6 => ifZero (sub0 && rsvd0 && b0 && a0) .dataerr
  | 0x7 => ifZero (sub0 && rsvd0 && b0 && a0) .endRun
  | _ => .error .reservedOpcode

/-- A command word from its fields, RSVD zero (R80). -/
def commandWord (op sub : BitVec 4) (b a : CodePoint) : Command := op ++ sub ++ 0#14 ++ b ++ a

/-- SUB of KEYLINE: NTOK, S0, S1 (R85). -/
def keylineSub (ntok : BitVec 2) (s0 s1 : Bool) : BitVec 4 := ntok ++ BitVec.ofBool s0 ++ BitVec.ofBool s1

/-- The word of a command (R80, R85, R86, R87). -/
def encode : Instr → Command
  | .nop => commandWord 0x0 0 0 0
  | .clear => commandWord 0x1 0 0 0
  | .keyline ntok s0 s1 a b => commandWord 0x2 (keylineSub ntok s0 s1) b a
  | .ivchar a => commandWord 0x3 0 0 a
  | .startEnc => commandWord 0x4 0x0 0 0
  | .startDec => commandWord 0x4 0x1 0 0
  | .data a => commandWord 0x5 0 0 a
  | .dataerr => commandWord 0x6 0 0 0
  | .endRun => commandWord 0x7 0 0 0

/-- The command the decoder reads from a table row's word: bit 0 is the word's least significant bit. -/
def decodeTableWord (nbits w : Nat) : Option Instr :=
  match decode (BitVec.ofNat 64 (w % 2 ^ nbits)) with
  | .ok i => some i
  | .error _ => none

end Sys2Proof
end

