-- ==== Sys2Proof/Machine/Operands.lean ====
section
/-!
DEFINITION. Operand checks and widths: the legal characters, the KEYLINE line check, and the values the error
registers take from an operand or a position.
-/

namespace Sys2Proof.Machine

/-- `Scalar(c)`: c is a Unicode scalar value (00_scope.md R13). -/
def isScalar (c : CodePoint) : Bool :=
  decide (c ≤ 0x10FFFF#21) && !(decide (0xD800#21 ≤ c) && decide (c ≤ 0xDFFF#21))

/-- Whether a key line splits into exactly two tokens of one character each (40_table_and_iv.md R110, its first
check; the fields are 30_encoding.md R85). -/
def keyLineOk (ntok : BitVec 2) (s0 s1 : Bool) : Bool := ntok == 2#2 && s0 && s1

/-- A character position or lane number as ERRPOS holds it: 32 bits (10_state.md R33; assumption log 7). -/
def pos32 (n : Nat) : BitVec 32 := BitVec.ofNat 32 n

/-- A length as the register read port gives it: `zext_64` (10_state.md R35). -/
def count64 (n : Nat) : BitVec 64 := BitVec.ofNat 64 n

end Sys2Proof.Machine
end

