-- ==== Sys2Proof/Machine/Ops.lean ====
section
/-!
DEFINITION. The shared operations: the error entry, the way out of it, the common phase check, and the substitution
table.
-/

namespace Sys2Proof.Machine

/-- What a step answers. -/
abbrev Result := Host.Outcome State Fault Refusal

/-! ### Error entry and leaving it -/

/-- `raise Error(code, val, pos)` while executing the word `w` (60_exceptions.md R210): five fields change. -/
def raiseError (code : ErrorCode) (w : Command) (val : CodePoint) (pos : BitVec 32) (s : State) : State :=
  { s with err := errorNumber code, errcmd := w, errval := val, errpos := pos, phase := .error }

/-- `S <- ResetState` by CLEAR (43_control_and_host.md R181), the only command that leaves phase ERROR (R214). The
parameters stay (R242), and so do the ports, which are not the unit's state. -/
def clearUnit (s : State) : State :=
  { State.resetWith s.params with port := s.port, host := s.host, reply := s.reply }

/-- The common checks of `Exec` for a well-formed command that is legal in one phase (60_exceptions.md R212): ignored
in phase ERROR; SEQUENCE, recording the phase, in any other phase than `need`; else the opcode's own rule. -/
def inPhase (need : Phase) (w : Command) (rule : State → Result) (s : State) : Result :=
  if s.phase = .error then .next s
  else if s.phase = need then rule s
  else .next (raiseError .sequence w ((phaseBits s.phase).setWidth 21) 0 s)

/-- Execution of a word that is not well-formed (60_exceptions.md R206, R212): ignored in phase ERROR, else
ILLEGAL_COMMAND. -/
def illegalCommand (w : Command) (s : State) : State :=
  if s.phase = .error then s else raiseError .illegalCommand w 0 0 s

/-! ### The substitution table -/

/-- The value of a key, if it is one: `k in dom(FWD)` and `FWD(k)` (00_scope.md R18). -/
def tableLookup : Table → CodePoint → Option CodePoint
  | [], _ => none
  | (k, v) :: t, c => if k = c then some v else tableLookup t c

/-- `FWD[k := v]` (00_scope.md R18): keys stay strictly rising, and a key already there gets the new value (R111). -/
def tableInsert : Table → CodePoint → CodePoint → Table
  | [], k, v => [(k, v)]
  | (k', v') :: t, k, v =>
    if k < k' then (k, v) :: (k', v') :: t
    else if k = k' then (k, v) :: t
    else (k', v') :: tableInsert t k v

/-- INV (10_state.md R26): the key of a value; the first one, where only an injective table has one meaning. -/
def tableInverse : Table → CodePoint → Option CodePoint
  | [], _ => none
  | (k, v) :: t, c => if v = c then some k else tableInverse t c

/-- The values that two or more keys map to (42_chain_cipher.md R151). -/
def sharedValues (t : Table) : List CodePoint :=
  (t.map Prod.snd).filter fun v => decide (2 ≤ (t.map Prod.snd).count v)

/-- The smallest character of a list, as a number. -/
def leastOf : List CodePoint → Option CodePoint
  | [] => none
  | v :: vs =>
    match leastOf vs with
    | none => some v
    | some u => if v ≤ u then some v else some u

/-- The smallest value that two or more keys map to; `none` exactly when the table is injective (R151). -/
def ambiguousValue (t : Table) : Option CodePoint := leastOf (sharedValues t)

/-- The canonical form of a table: keys strictly rising (assumption log 8). -/
abbrev TableSorted (t : Table) : Prop := (t.map Prod.fst).Pairwise (· < ·)

end Sys2Proof.Machine
end

