-- ==== Sys2Proof/Machine/Control.lean ====
section
/-!
DEFINITION. The control commands NOP and CLEAR (43_control_and_host.md R180, R181).
-/

namespace Sys2Proof.Machine

/-- NOP (R180): no effect, in every phase. -/
def execNop (s : State) : Result := .next s

/-- CLEAR (R181): the reset state, in every phase, ERROR included (60_exceptions.md R214). -/
def execClear (s : State) : Result := .next (clearUnit s)

end Sys2Proof.Machine
end

