-- ==== Sys2Proof/Machine/Loading.lean ====
section
/-!
DEFINITION. Loading the table and the IV: KEYLINE and IVCHAR (40_table_and_iv.md R110 to R116), legal in phase LOAD.
-/

namespace Sys2Proof.Machine

/-- KEYLINE's rule (R110), its checks in the order written. ERRVAL of a malformed line is SUB, `W[59:56]`. -/
def loadKeyLine (w : Command) (ntok : BitVec 2) (s0 s1 : Bool) (a b : CodePoint) (s : State) : Result :=
  if !keyLineOk ntok s0 s1 then
    .next (raiseError .malformedKeyLine w ((keylineSub ntok s0 s1).setWidth 21) 0 s)
  else if !isScalar a then .next (raiseError .inputNotScalar w a 0 s)
  else if !isScalar b then .next (raiseError .inputNotScalar w b 1 s)
  else if (tableLookup s.fwd a).isNone && s.fwd.length == s.params.tmax then .next (raiseError .tableFull w a 0 s)
  else .next { s with fwd := tableInsert s.fwd a b }

/-- KEYLINE (R110, R111, R112). -/
def execKeyline (ntok : BitVec 2) (s0 s1 : Bool) (a b : CodePoint) (s : State) : Result :=
  let w := encode (.keyline ntok s0 s1 a b)
  inPhase .load w (loadKeyLine w ntok s0 s1 a b) s

/-- IVCHAR's rule (R114). -/
def loadIvChar (w : Command) (a : CodePoint) (s : State) : Result :=
  if !isScalar a then .next (raiseError .inputNotScalar w a (pos32 s.iv.length) s)
  else if s.iv.length = s.params.lmax then .next (raiseError .ivTooLong w a (pos32 s.iv.length) s)
  else .next { s with iv := s.iv ++ [a] }

/-- IVCHAR (R114). -/
def execIvchar (a : CodePoint) (s : State) : Result :=
  let w := encode (.ivchar a)
  inPhase .load w (loadIvChar w a) s

end Sys2Proof.Machine
end

