-- ==== Sys2Proof/Machine/Datapath.lean ====
section
/-!
DEFINITION. The chain cipher datapath (42_chain_cipher.md R160 to R173): Sub, Unsub, the lanes of a block, and
ProcessBlock, which DATA and END invoke.
-/

namespace Sys2Proof.Machine

/-- `Sub(c)` (10_state.md R27). -/
def substitute (t : Table) (c : CodePoint) : CodePoint := (tableLookup t c).getD c

/-- `Unsub(c)` (10_state.md R27). -/
def unsubstitute (t : Table) (c : CodePoint) : CodePoint := (tableInverse t c).getD c

/-- The XOR result of each lane of block encryption (R160). -/
def encXors (fb cur : List CodePoint) : List CodePoint := List.zipWith (· ^^^ ·) fb cur

/-- The XOR result of each lane of block decryption (R170). -/
def decXors (t : Table) (fb cur : List CodePoint) : List CodePoint :=
  List.zipWith (· ^^^ ·) fb (cur.map (unsubstitute t))

/-- The first lane, counted from `i`, whose XOR result is not a Unicode scalar value: `Fail(x, i)` of R160 and R170. -/
def firstFailure : List CodePoint → Nat → Option (CodePoint × Nat)
  | [], _ => none
  | x :: xs, i => if isScalar x then firstFailure xs (i + 1) else some (x, i)

/-- What a block gives: `Ok(out, newFB)`, `Fail(x, i)`, or a case the spec gives no meaning (assumption log 6). -/
inductive BlockResult where
  | ok (out newFb : List CodePoint)
  | fail (x : CodePoint) (lane : Nat)
  | undefined (f : Fault)
  deriving DecidableEq, Repr

/-- `EncBlock(fb, cur)` (R160): the new feedback is the post-substitution output. -/
def encBlock (t : Table) (fb cur : List CodePoint) : BlockResult :=
  match firstFailure (encXors fb cur) 0 with
  | some (x, i) => .fail x i
  | none => .ok ((encXors fb cur).map (substitute t)) ((encXors fb cur).map (substitute t))

/-- `DecBlock(fb, cur)` (R170): the new feedback is the raw input block. -/
def decBlock (t : Table) (fb cur : List CodePoint) : BlockResult :=
  match firstFailure (decXors t fb cur) 0 with
  | some (x, i) => .fail x i
  | none => .ok (decXors t fb cur) cur

/-- The block function ProcessBlock calls in each mode (R162). -/
def blockResult (s : State) (cur : List CodePoint) : BlockResult :=
  if cur.length = s.iv.length ∧ s.fb.length = s.iv.length then
    match s.mode with
    | .enc => encBlock s.fwd s.fb cur
    | .dec => if ambiguousValue s.fwd = none then decBlock s.fwd s.fb cur else .undefined .inverseUndefined
  else .undefined .laneCountUndefined

/-- The effect of a block that did not fail (R162): all lanes enter OQ, lane 0 first. -/
def pushBlock (out newFb : List CodePoint) (s : State) : State :=
  { s with oq := s.oq ++ out, fb := newFb, nblk := s.nblk + 1, nout := s.nout + count64 s.iv.length }

/-- `ProcessBlock(cur)` (R162) inside the command `w`, then the rest `after` of that command. A failing lane raises
RESULT_NOT_SCALAR in the state from before the command (60_exceptions.md R210, R211). -/
def processBlock (w : Command) (cur : List CodePoint) (after : State → State) (s : State) : Result :=
  match blockResult s cur with
  | .ok out newFb => .next (after (pushBlock out newFb s))
  | .fail x lane => .next (raiseError .resultNotScalar w x (pos32 lane) s)
  | .undefined f => .fault f

end Sys2Proof.Machine
end

