-- ==== Sys2Proof/Machine/Payload.lean ====
section
/-!
DEFINITION. Payload input, segmentation and padding: DATA, DATAERR and END (41_segmentation_padding.md R132, R135,
R137), legal in phase RUN.
-/

namespace Sys2Proof.Machine

/-- DATA's last two assignments when the block completes (R132). -/
def closeBlock (s : State) : State := { s with buf := [], nin := s.nin + 1 }

/-- DATA's rule (R132). -/
def takeCharacter (w : Command) (a : CodePoint) (s : State) : Result :=
  if !isScalar a then .next (raiseError .inputNotScalar w a (pos32 s.buf.length) s)
  else if s.buf.length + 1 < s.iv.length then .next { s with buf := s.buf ++ [a], nin := s.nin + 1 }
  else processBlock w (s.buf ++ [a]) closeBlock s

/-- DATA (R132). -/
def execData (a : CodePoint) (s : State) : Result :=
  let w := encode (.data a)
  inPhase .run w (takeCharacter w a) s

/-- DATAERR's rule (R135): ERRPOS is NIN mod 2^32. -/
def payloadError (w : Command) (s : State) : Result :=
  .next (raiseError .nonUtf8Payload w 0 (s.nin.setWidth 32) s)

/-- DATAERR (R135). -/
def execDataerr (s : State) : Result := inPhase .run (encode .dataerr) (payloadError (encode .dataerr)) s

/-- END's last two assignments (R137). -/
def finishRun (s : State) : State := { s with phase := .done, runOk := true }

/-- The last block of a run: BUF followed by `L - |BUF|` NUL characters (R130, R137). -/
def paddedBlock (s : State) : List CodePoint := s.buf ++ List.replicate (s.iv.length - s.buf.length) nul

/-- What END does after its padded block (R137). -/
def closePaddedBlock (s : State) : State :=
  finishRun { s with npad := s.iv.length - s.buf.length, buf := [] }

/-- END's rule (R137). -/
def endPayload (w : Command) (s : State) : Result :=
  if s.buf = [] then .next (finishRun s) else processBlock w (paddedBlock s) closePaddedBlock s

/-- END (R137). -/
def execEnd (s : State) : Result := inPhase .run (encode .endRun) (endPayload (encode .endRun)) s

end Sys2Proof.Machine
end

