-- ==== Sys2Proof/Machine/Start.lean ====
section
/-!
DEFINITION. Beginning a run: START.ENC and START.DEC (42_chain_cipher.md R150, R151), legal in phase LOAD.
-/

namespace Sys2Proof.Machine

/-- What START writes (R150): MODE, FB, BUF and PHASE. -/
def beginRun (m : Mode) (s : State) : State :=
  { s with mode := m, fb := s.iv, buf := [], phase := .run }

/-- START's rule in mode ENC (R150): any table is accepted. -/
def startEncRule (w : Command) (s : State) : Result :=
  if s.iv = [] then .next (raiseError .emptyIv w 0 0 s) else .next (beginRun .enc s)

/-- START's rule in mode DEC (R150, R151): EMPTY_IV first, then a table two of whose keys share a value is refused,
naming the smallest such value. -/
def startDecRule (w : Command) (s : State) : Result :=
  if s.iv = [] then .next (raiseError .emptyIv w 0 0 s)
  else
    match ambiguousValue s.fwd with
    | some v => .next (raiseError .ambiguousReverseMapping w v 0 s)
    | none => .next (beginRun .dec s)

/-- START.ENC (R150). -/
def execStartEnc (s : State) : Result := inPhase .load (encode .startEnc) (startEncRule (encode .startEnc)) s

/-- START.DEC (R150, R151). -/
def execStartDec (s : State) : Result := inPhase .load (encode .startDec) (startDecRule (encode .startDec)) s

end Sys2Proof.Machine
end

