-- ==== Sys2Proof/Machine/Dispatch.lean ====
section
/-!
DEFINITION. Execution of a well-formed command, one arm per row of spec/opcode_table.json (60_exceptions.md R212).
-/

namespace Sys2Proof.Machine

/-- `Exec(S, W)` for the word W of the command `i` (60_exceptions.md R212). -/
def exec (i : Instr) (s : State) : Host.Outcome State Fault Refusal :=
  match i with
  | .nop => Sys2Proof.Machine.execNop s
  | .clear => Sys2Proof.Machine.execClear s
  | .keyline ntok s0 s1 a b => Sys2Proof.Machine.execKeyline ntok s0 s1 a b s
  | .ivchar a => Sys2Proof.Machine.execIvchar a s
  | .startEnc => Sys2Proof.Machine.execStartEnc s
  | .startDec => Sys2Proof.Machine.execStartDec s
  | .data a => Sys2Proof.Machine.execData a s
  | .dataerr => Sys2Proof.Machine.execDataerr s
  | .endRun => Sys2Proof.Machine.execEnd s

end Sys2Proof.Machine
end

