-- ==== Sys2Proof/Machine/Port.lean ====
section
/-!
DEFINITION. The three ports (20_memory.md R60): execution of the word at the command port, the hold, the register read
port, the output port, the reset signal, and one action of the host.
-/

namespace Sys2Proof.Machine

/-- `Exec(S, W)` for any word (60_exceptions.md R212). -/
def execWord (w : Command) (s : State) : Result :=
  match decode w with
  | .ok i => exec i s
  | .error _ => .next (illegalCommand w s)

/-- Whether the word would push a block (43_control_and_host.md R186): a DATA that completes a block, or an END with a
partial block. DATA counts whatever its character is (assumption log 11). -/
def pushesBlock (w : Command) (s : State) : Bool :=
  match decode w with
  | .ok (.data _) => s.buf.length + 1 == s.iv.length
  | .ok .endRun => decide (0 < s.buf.length)
  | _ => false

/-- Whether OQ lacks room for a whole block: `|OQ| > OQ_DEPTH - L` (R186). -/
def lacksRoom (s : State) : Bool :=
  match s.params.oqDepth with
  | none => false
  | some depth => decide (depth < s.oq.length + s.iv.length)

/-- Whether the word is held at the command port (R186). -/
def isHeld (w : Command) (s : State) : Bool := decide (s.phase = .run) && pushesBlock w s && lacksRoom s

/-- `Reg(S, n)`: the register map of 10_state.md R35; reserved indices read 0. -/
def readRegister (s : State) (n : BitVec 8) : BitVec 64 :=
  match n.toNat with
  | 0x00 => statusWord s
  | 0x01 => count64 s.iv.length
  | 0x02 => count64 s.fwd.length
  | 0x03 => count64 s.buf.length
  | 0x04 => s.nin
  | 0x05 => s.nblk
  | 0x06 => s.nout
  | 0x07 => count64 s.npad
  | 0x08 => s.errcmd
  | 0x09 => s.errpos ++ 0#11 ++ s.errval
  | 0x0A => BitVec.ofNat 32 s.params.tmax ++ BitVec.ofNat 32 s.params.lmax
  | 0x0B => count64 s.oq.length
  | _ => 0

/-- REGRD (43_control_and_host.md R183): no state is written but the answer at the port. -/
def readPort (n : BitVec 8) (s : State) : State := { s with reply := .register (readRegister s n) }

/-- The 22-bit output word: VALID in bit 21, the character in bits 20:0 (30_encoding.md R90). -/
def outputWord (c : CodePoint) : BitVec 22 := 1#1 ++ c

/-- OUTPOP (43_control_and_host.md R185): the head of OQ, or VALID = 0 from an empty queue. -/
def popPort (s : State) : State :=
  match s.oq with
  | [] => { s with reply := .output 0 }
  | c :: cs => { s with oq := cs, popped := s.popped ++ [c], reply := .output (outputWord c) }

/-- The reset signal (70_reset_and_hazards.md R241): the reset state, and a word that stood at the command port is never
written. The host goes on with its later actions. -/
def resetPort (s : State) : State := { State.resetWith s.params with host := s.host }

/-- The host presents a word at the command port. -/
def presentWord (w : Command) (s : State) : State := { s with port := some w, reply := .nothing }

/-- The host's next action (R189). A write is not enabled while another word stands at the command port (R186): the host
waits and nothing changes. A host with no action left is idle, and the unit keeps its state (60_exceptions.md R221;
assumption log 4). -/
def hostStep (s : State) : State :=
  match s.host with
  | [] => s
  | .write w :: rest => if s.port = none then presentWord w { s with host := rest } else s
  | .read n :: rest => readPort n { s with host := rest }
  | .pop :: rest => popPort { s with host := rest }
  | .resetSignal :: rest => resetPort { s with host := rest }

/-- The unit accepts the word `w` from the command port and executes it. -/
def acceptWord (w : Command) (s : State) : Result := execWord w { s with port := none, reply := .nothing }

/-- One step of the unit or of the host (00_scope.md R11): the unit accepts the word at the command port unless it is
held, else the host acts (assumption log 3). -/
def portStep (s : State) : Result :=
  match s.port with
  | some w => if isHeld w s then .next (hostStep s) else acceptWord w s
  | none => .next (hostStep s)

/-- `s` with the word of a table row presented at the command port (assumption log 9). -/
def placeWord (s : State) (nbits w : Nat) : State := { s with port := some (BitVec.ofNat 64 (w % 2 ^ nbits)) }

end Sys2Proof.Machine
end

