-- ==== Sys2Proof/Machine/Step.lean ====
section
/-!
DEFINITION. One step of the machine, and where the next command word is placed.
-/

namespace Sys2Proof.Machine

/-- One step (00_scope.md R11). -/
def step (s : State) : Host.Outcome State Fault Refusal := portStep s

/-- `s` with this word where the step takes its next command from: the command port (assumption log 9). -/
def State.withFetchWord (s : State) (nbits w : Nat) : State := placeWord s nbits w

end Sys2Proof.Machine
end

