-- ==== Sys2Proof/Machine/Assembler.lean ====
section
/-!
DEFINITION. The textual form of command streams: one line to the words it stands for (30_encoding.md R92), and the
pseudo-instructions (R93). This is the host's notation, not the hardware's (92_eei_decisions.md D20); what R92 leaves
open about spacing is in assumption log 12.
-/

namespace Sys2Proof.Machine

/-- Why a line is not in the textual form. -/
inductive AsmError where
  | badToken | unknownMnemonic | badOperand
  deriving DecidableEq, Repr

/-- A piece of a line: a bare word, a quoted character, a quoted string, a comma or an equals sign. -/
inductive AsmToken where
  | word (cs : List Char)
  | chr (c : CodePoint)
  | str (cs : List CodePoint)
  | comma
  | equals
  deriving DecidableEq, Repr

/-- What the tokenizer is in the middle of: a bare word (maybe empty) or a quoted string. -/
inductive AsmMode where
  | bare (acc : List Char)
  | quoted (acc : List CodePoint)
  deriving DecidableEq, Repr

/-- The value of a hexadecimal digit. -/
def hexDigit (c : Char) : Option Nat :=
  let n := c.toNat
  if 48 ≤ n ∧ n ≤ 57 then some (n - 48)
  else if 65 ≤ n ∧ n ≤ 70 then some (n - 55)
  else if 97 ≤ n ∧ n ≤ 102 then some (n - 87)
  else none

/-- The value of a hexadecimal numeral, most significant digit first. -/
def hexValue (cs : List Char) : Option Nat :=
  cs.foldl (fun acc c => do return (← acc) * 16 + (← hexDigit c)) (some 0)

/-- A Lean character as the unit's character. -/
def charCode (c : Char) : CodePoint := BitVec.ofNat 21 c.toNat

/-- Printable ASCII (R92). -/
def isPrintable (c : Char) : Bool := decide (0x20 ≤ c.toNat) && decide (c.toNat ≤ 0x7E)

/-- The bare word read so far, if any. -/
def flushWord (acc : List Char) : List AsmToken := if acc = [] then [] else [.word acc]

/-- The tokens of a line; a `;` outside quotes starts a comment (R92). In a string, `\0` is U+0000 and `\uHHHH` is the
code point HHHH (R93). What the rules leave open is DESIGN CHOICE, assumption log 12: any other backslash in a string is refused,
as is an unclosed quotation; tokens need no space beside a quotation, a comma or an equals sign. -/
def tokenize : AsmMode → List Char → Except AsmError (List AsmToken)
  | .bare acc, [] => .ok (flushWord acc)
  | .bare acc, '\'' :: '\\' :: '0' :: '\'' :: rest => do
    return flushWord acc ++ .chr nul :: (← tokenize (.bare []) rest)
  | .bare acc, '\'' :: c :: '\'' :: rest =>
    if isPrintable c then do return flushWord acc ++ .chr (charCode c) :: (← tokenize (.bare []) rest)
    else .error .badToken
  | .bare acc, c :: rest =>
    if c = ';' then .ok (flushWord acc)
    else if c = ' ' ∨ c = '\t' then do return flushWord acc ++ (← tokenize (.bare []) rest)
    else if c = ',' then do return flushWord acc ++ .comma :: (← tokenize (.bare []) rest)
    else if c = '=' then do return flushWord acc ++ .equals :: (← tokenize (.bare []) rest)
    else if c = '"' then do return flushWord acc ++ (← tokenize (.quoted []) rest)
    else if c = '\'' then .error .badToken
    else tokenize (.bare (acc ++ [c])) rest
  | .quoted _, [] => .error .badToken
  | .quoted acc, '\\' :: '0' :: rest => tokenize (.quoted (acc ++ [nul])) rest
  | .quoted acc, '\\' :: 'u' :: h1 :: h2 :: h3 :: h4 :: rest =>
    match hexValue [h1, h2, h3, h4] with
    | some n => tokenize (.quoted (acc ++ [BitVec.ofNat 21 n])) rest
    | none => .error .badToken
  | .quoted acc, c :: rest =>
    if c = '"' then do return .str acc :: (← tokenize (.bare []) rest)
    else if c = '\\' then .error .badToken
    else tokenize (.quoted (acc ++ [charCode c])) rest

/-- A character operand: a quoted character, or `U+` and 4 to 6 hexadecimal digits (R92). -/
def charOperand : AsmToken → Except AsmError CodePoint
  | .chr c => .ok c
  | .word ('U' :: '+' :: digits) =>
    match hexValue digits with
    | some n =>
      if 4 ≤ digits.length ∧ digits.length ≤ 6 ∧ n < 2 ^ 21 then .ok (BitVec.ofNat 21 n) else .error .badOperand
    | none => .error .badOperand
  | _ => .error .badOperand

/-- A one-digit number below a bound (R92: `ntok=n`, `s0=b`, `s1=b`). -/
def digitOperand (bound : Nat) : AsmToken → Except AsmError Nat
  | .word [c] =>
    match hexDigit c with
    | some n => if n < bound then .ok n else .error .badOperand
    | none => .error .badOperand
  | _ => .error .badOperand

/-- The operand fields of KEYLINE's general form. -/
structure KeyFields where
  ntok : BitVec 2
  s0 : Bool
  s1 : Bool
  a : CodePoint
  b : CodePoint
  deriving DecidableEq, Repr

/-- The general form's fields, separated by commas; `k` holds those read so far (R92: any field left out is 0). -/
def keyFields (k : KeyFields) : List AsmToken → Except AsmError KeyFields
  | [] => .ok k
  | .word name :: .equals :: v :: rest => do
    let k' ←
      if name = "ntok".toList then do pure { k with ntok := BitVec.ofNat 2 (← digitOperand 4 v) }
      else if name = "s0".toList then do pure { k with s0 := (← digitOperand 2 v) == 1 }
      else if name = "s1".toList then do pure { k with s1 := (← digitOperand 2 v) == 1 }
      else if name = "a".toList then do pure { k with a := ← charOperand v }
      else if name = "b".toList then do pure { k with b := ← charOperand v }
      else .error .badOperand
    match rest with
    | [] => .ok k'
    | .comma :: rest' => if rest' = [] then .error .badOperand else keyFields k' rest'
    | _ => .error .badOperand
  | _ => .error .badOperand

/-- KEYLINE's general form (R92). With every field left out each is 0, by the rule's words; that the bare mnemonic is such a line
is DEDUCED, assumption log 12. -/
def keylineGeneral (fields : List AsmToken) : Except AsmError (List Command) := do
  let k ← keyFields { ntok := 0, s0 := false, s1 := false, a := 0, b := 0 } fields
  return [encode (.keyline k.ntok k.s0 k.s1 k.a k.b)]

/-- A line of the table file with two one-character tokens: `KEYLINE c1, c2` (R92). -/
def keyPair (a b : CodePoint) : Instr := .keyline 2 true true a b

/-- The mnemonics that take no operand (R92). -/
def plainMnemonics : List (List Char × Instr) :=
  [("NOP".toList, .nop), ("CLEAR".toList, .clear), ("START.ENC".toList, .startEnc), ("START.DEC".toList, .startDec),
   ("DATAERR".toList, .dataerr), ("END".toList, .endRun)]

/-- The words of a line's tokens: the commands of R92, and the pseudo-instructions KEY, IV and TEXT of R93. Mnemonics are taken in
the spec's letter case, and a line of any other shape is refused (DESIGN CHOICE, assumption log 12). -/
def assembleTokens : List AsmToken → Except AsmError (List Command)
  | [] => .ok []
  | [.word m] =>
    match plainMnemonics.lookup m with
    | some i => .ok [encode i]
    | none => if m = "KEYLINE".toList then keylineGeneral [] else .error .unknownMnemonic
  | [.word m, x] =>
    if m = "IVCHAR".toList then do return [encode (.ivchar (← charOperand x))]
    else if m = "DATA".toList then do return [encode (.data (← charOperand x))]
    else if m = ".word".toList then
      match x with
      | .word ('0' :: 'x' :: digits) =>
        match hexValue digits with
        | some n => if digits.length = 16 then .ok [BitVec.ofNat 64 n] else .error .badOperand
        | none => .error .badOperand
      | _ => .error .badOperand
    else if m = "IV".toList then
      match x with
      | .str s => .ok (s.map fun c => encode (.ivchar c))
      | _ => .error .badOperand
    else if m = "TEXT".toList then
      match x with
      | .str s => .ok (s.map fun c => encode (.data c))
      | _ => .error .badOperand
    else .error .unknownMnemonic
  | [.word m, x, y] =>
    if m = "KEY".toList then do return [encode (keyPair (← charOperand x) (← charOperand y))]
    else .error .unknownMnemonic
  | [.word m, x, .comma, y] =>
    if m = "KEYLINE".toList then do return [encode (keyPair (← charOperand x) (← charOperand y))]
    else .error .unknownMnemonic
  | .word m :: rest =>
    if m = "KEYLINE".toList then keylineGeneral rest else .error .unknownMnemonic
  | _ => .error .unknownMnemonic

/-- The words one line stands for: none for an empty line or a comment (R92, R93). -/
def assembleLine (line : List Char) : Except AsmError (List Command) := do assembleTokens (← tokenize (.bare []) line)

/-- `ENCRYPT T, "v", "p"` (R93), for the pairs of T in the order given. -/
def encryptCommands (t : List (CodePoint × CodePoint)) (v p : List CodePoint) : List Instr :=
  .clear :: t.map (fun kv => keyPair kv.1 kv.2) ++ v.map .ivchar ++ .startEnc :: p.map .data ++ [.endRun]

/-- `DECRYPT T, "v", "p"` (R93). -/
def decryptCommands (t : List (CodePoint × CodePoint)) (v p : List CodePoint) : List Instr :=
  .clear :: t.map (fun kv => keyPair kv.1 kv.2) ++ v.map .ivchar ++ .startDec :: p.map .data ++ [.endRun]

end Sys2Proof.Machine
end

