-- ==== Sys2Proof/Safety.lean ====
section
/-!
DEFINITION. The terms claims use: legal parameters, the invariants of a state reached from reset (10_state.md R36), runs
of commands and of steps, the output of a run (43_control_and_host.md R188), and the reference functions of the source's
algorithm: pad, segment, and the chained encryption and decryption of a block sequence (41_segmentation_padding.md R130,
R131; 42_chain_cipher.md R174).
-/

namespace Sys2Proof.Machine

/-- No two distinct keys have the same value (42_chain_cipher.md R151). -/
def Injective (t : Table) : Prop :=
  ∀ k k' v, tableLookup t k = some v → tableLookup t k' = some v → k = k'

/-- The table is a permutation of its own key set: injective, and every value is also a key (R172). -/
def PermutesItsKeys (t : Table) : Prop :=
  Injective t ∧ ∀ k v, tableLookup t k = some v → (tableLookup t v).isSome

/-- Every character is a Unicode scalar value. -/
def AllScalar (cs : List CodePoint) : Prop := ∀ c ∈ cs, isScalar c = true

/-- The state invariant. The fields are those of 10_state.md R36, with what R24 to R33 and R162 add: the parameters' ranges
(R14 to R16), the table's canonical form, an injective table in a decryption (R26), the counters' relations (R31, R188), and
error registers that read 0 while there is no error (R33, R200). It says nothing about the host's coming actions. -/
structure StateInv (s : State) : Prop where
  params : s.params.WF
  load : s.phase = .load →
    s.mode = .enc ∧ s.runOk = false ∧ s.buf = [] ∧ s.oq = [] ∧ s.popped = [] ∧ s.nin = 0 ∧ s.nblk = 0 ∧ s.nout = 0 ∧ s.npad = 0
  active : s.phase = .run ∨ s.phase = .done → 1 ≤ s.iv.length ∧ s.fb.length = s.iv.length
  running : s.phase = .run → s.buf.length < s.iv.length ∧ s.runOk = false ∧ s.npad = 0
  finished : s.phase = .done → s.buf = [] ∧ s.runOk = true
  error_iff : s.phase = .error ↔ s.err ≠ 0
  error_code : s.err ≤ 10
  error_clear : s.err = 0 → s.errcmd = 0 ∧ s.errval = 0 ∧ s.errpos = 0
  table_sorted : TableSorted s.fwd
  table_room : s.fwd.length ≤ s.params.tmax
  iv_room : s.iv.length ≤ s.params.lmax
  queue_room : ∀ d ∈ s.params.oqDepth, s.oq.length ≤ d
  scalar_iv : AllScalar s.iv
  scalar_keys : AllScalar (s.fwd.map Prod.fst)
  scalar_values : AllScalar (s.fwd.map Prod.snd)
  scalar_buf : AllScalar s.buf
  scalar_fb : AllScalar s.fb
  scalar_oq : AllScalar s.oq
  inverse : s.phase = .run ∨ s.phase = .done → s.mode = .dec → Injective s.fwd
  nout_blocks : s.nout = count64 s.iv.length * s.nblk
  nout_queue : s.nout = count64 (s.popped.length + s.oq.length)
  pad_room : s.npad < s.params.lmax

/-- The state after `raise Error(code, val, pos)` in `s` during the word `w`, its fields written out (60_exceptions.md
R210). -/
def errorAt (s : State) (code : BitVec 8) (w : Command) (val : CodePoint) (pos : BitVec 32) : State :=
  { s with phase := .error, err := code, errcmd := w, errval := val, errpos := pos }

/-- The fields of ResetState that 70_reset_and_hazards.md R240 gives a value. It gives FB none (R243), so FB is left open. -/
def AtReset (s : State) : Prop :=
  s.phase = .load ∧ s.mode = .enc ∧ s.runOk = false ∧ s.iv = [] ∧ s.fwd = [] ∧ s.buf = [] ∧ s.oq = [] ∧ s.nin = 0 ∧ s.nblk = 0
    ∧ s.nout = 0 ∧ s.npad = 0 ∧ s.err = 0 ∧ s.errcmd = 0 ∧ s.errval = 0 ∧ s.errpos = 0

/-- The block function of the state's mode: EncBlock or DecBlock on FB (42_chain_cipher.md R162). -/
def modeBlock (s : State) (cur : List CodePoint) : BlockResult :=
  match s.mode with
  | .enc => encBlock s.fwd s.fb cur
  | .dec => decBlock s.fwd s.fb cur

/-- A character below 0x80 (42_chain_cipher.md R164). -/
def AllAscii (cs : List CodePoint) : Prop := ∀ c ∈ cs, c < 0x80#21

/-- The output of a completed run (43_control_and_host.md R188): what was popped since START, then what is still in OQ. A
failed or abandoned run has none (R136, R254). -/
def runOutput (s : State) : Option (List CodePoint) := if s.runOk then some (s.popped ++ s.oq) else none

/-- Commands executed one after another, each accepted as it is presented (00_scope.md R10). -/
def execAll : List Instr → State → Result
  | [], s => .next s
  | i :: is, s =>
    match exec i s with
    | .next t => execAll is t
    | .fault f => .fault f
    | .refused r => .refused r

/-- `n` steps of the machine. -/
def stepMany : Nat → State → Result
  | 0, s => .next s
  | n + 1, s =>
    match step s with
    | .next t => stepMany n t
    | .fault f => .fault f
    | .refused r => .refused r

/-- `pad(t, L)` (41_segmentation_padding.md R130). -/
def padText (t : List CodePoint) (l : Nat) : List CodePoint :=
  if t.length % l = 0 then t else t ++ List.replicate (l - t.length % l) nul

/-- `segment(t, L)` (R131): block k is `t[kL : (k+1)L]`. -/
def segmentText (t : List CodePoint) (l : Nat) : List (List CodePoint) :=
  (List.range (t.length / l)).map fun k => (t.drop (k * l)).take l

/-- The encryption of a block sequence (42_chain_cipher.md R174): `C_k[i] = Sub(F_k[i] ^ B_k[i])`, `F_0 = V`,
`F_{k+1} = C_k`; `none` where some XOR result is not a scalar value. -/
def encryptChain (t : Table) : List CodePoint → List (List CodePoint) → Option (List CodePoint)
  | _, [] => some []
  | f, b :: bs =>
    let xs := List.zipWith (· ^^^ ·) f b
    if xs.all isScalar then
      (encryptChain t (xs.map (substitute t)) bs).map fun rest => xs.map (substitute t) ++ rest
    else none

/-- The decryption of a block sequence (R174): `D_k[i] = F_k[i] ^ Unsub(B_k[i])`, `F_0 = V`, `F_{k+1} = B_k`. -/
def decryptChain (t : Table) : List CodePoint → List (List CodePoint) → Option (List CodePoint)
  | _, [] => some []
  | f, b :: bs =>
    let xs := List.zipWith (· ^^^ ·) f (b.map (unsubstitute t))
    if xs.all isScalar then (decryptChain t b bs).map fun rest => xs ++ rest else none

end Sys2Proof.Machine
end

