-- ==== Sys2Proof/Certificates/Slice0/Obligations.lean ====
section
/-!
DEFINITION. The statements for the provers. Each docstring names the rule of spec/ it formalises; where a clause rests on a
choice of the model, it names the assumption log's entry.
-/

open Sys2Proof Sys2Proof.Machine

/-! ### Encoding -/

/-- Decoding the encoding of any command gives the command back (30_encoding.md sections 1 to 3). -/
def Obligations.DecodeOfEncodeIsIdentity : Prop := ∀ i : Instr, decode (encode i) = .ok i

/-- Each word has one meaning: a word that decodes is the encoding of what it decodes to (30_encoding.md section 3). -/
def Obligations.EncodeOfDecodeIsIdentity : Prop := ∀ (w : Command) (i : Instr), decode w = .ok i → encode i = w

/-- 30_encoding.md R88: the decoder accepts exactly the words of the rule's formula, these are the words that match a row of the
opcode table, and a word matches at most one row. -/
def Obligations.DecodeAcceptsExactlyWellFormedWords : Prop :=
  ∀ w : Command,
    let op := w.extractLsb' 60 4
    let wf : Prop :=
      ((op = 0x0#4 ∨ op = 0x1#4 ∨ op = 0x6#4 ∨ op = 0x7#4) ∧ w.extractLsb' 0 60 = 0#60)
        ∨ (op = 0x2#4 ∧ w.extractLsb' 42 14 = 0#14)
        ∨ ((op = 0x3#4 ∨ op = 0x5#4) ∧ w.extractLsb' 21 39 = 0#39)
        ∨ (op = 0x4#4 ∧ w.extractLsb' 57 3 = 0#3 ∧ w.extractLsb' 0 56 = 0#56)
    (wf ↔ ∃ i, decode w = .ok i)
      ∧ (wf ↔ ∃ r ∈ opcodeTable, w &&& r.1 = r.2)
      ∧ (∀ r ∈ opcodeTable, ∀ r' ∈ opcodeTable, w &&& r.1 = r.2 → w &&& r'.1 = r'.2 → r = r')

/-- 30_encoding.md R89 and 60_exceptions.md R206: a word that is not well-formed raises ILLEGAL_COMMAND in LOAD, RUN and DONE
and is ignored in ERROR; opcodes 0x8 to 0xF are never well-formed; the zero word is the only one that never has an effect. -/
def Obligations.IllegalWordsRaiseIllegalCommand : Prop :=
  (∀ (w : Command) (s : State), ¬ WellFormedWord w →
      (s.phase ≠ .error → execWord w s = .next (errorAt s 7 w 0 0))
        ∧ (s.phase = .error → execWord w s = .next s))
    ∧ (∀ w : Command, 0x8#4 ≤ w.extractLsb' 60 4 → ¬ WellFormedWord w)
    ∧ (∀ w : Command, (∀ s : State, execWord w s = .next s) ↔ w = 0)

/-- A few words of 30_encoding.md section 6 and 95_test_vectors.md L2-W decode to the commands they stand for. -/
def Obligations.SampleWordsDecode : Prop :=
  decode 0x0000000000000000#64 = .ok .nop
    ∧ decode 0x1000000000000000#64 = .ok .clear
    ∧ decode 0x2B0000000B200058#64 = .ok (.keyline 2 true true 0x58 0x59)
    ∧ decode 0x2600000000000058#64 = .ok (.keyline 1 true false 0x58 0)
    ∧ decode 0x3000000000000041#64 = .ok (.ivchar 0x41)
    ∧ decode 0x4000000000000000#64 = .ok .startEnc
    ∧ decode 0x4100000000000000#64 = .ok .startDec
    ∧ decode 0x500000000010FFFF#64 = .ok (.data 0x10FFFF)
    ∧ decode 0x6000000000000000#64 = .ok .dataerr
    ∧ decode 0x7000000000000000#64 = .ok .endRun
    ∧ decode 0x4200000000000000#64 = .error .mustBeZero
    ∧ decode 0x8000000000000000#64 = .error .reservedOpcode

/-! ### The commands' own rules -/

/-- 43_control_and_host.md R180: NOP changes nothing in any phase and is never held; any other word with OP = 0x0 raises
ILLEGAL_COMMAND outside ERROR. -/
def Obligations.NopHasNoEffect : Prop :=
  decode 0x0000000000000000#64 = .ok .nop
    ∧ (∀ s : State, exec .nop s = .next s ∧ isHeld 0x0000000000000000#64 s = false)
    ∧ (∀ (w : Command) (s : State), w.extractLsb' 60 4 = 0x0#4 → w ≠ 0x0000000000000000#64 → s.phase ≠ .error →
        execWord w s = .next (errorAt s 7 w 0 0))

/-- 43_control_and_host.md R181: in every phase CLEAR gives every field its reset value, FB none; any other word with OP = 0x1 is
illegal, and ignored in ERROR; in ERROR no other word than CLEAR changes anything. -/
def Obligations.ClearGivesResetState : Prop :=
  decode 0x1000000000000000#64 = .ok .clear
    ∧ (∀ s : State, ∃ t, exec .clear s = .next t ∧ AtReset t)
    ∧ (∀ (w : Command) (s : State), w.extractLsb' 60 4 = 0x1#4 → w ≠ 0x1000000000000000#64 →
        (s.phase ≠ .error → execWord w s = .next (errorAt s 7 w 0 0)) ∧ (s.phase = .error → execWord w s = .next s))
    ∧ (∀ (w : Command) (s : State), s.phase = .error → w ≠ 0x1000000000000000#64 → execWord w s = .next s)

/-- 40_table_and_iv.md R110: KEYLINE in phase LOAD, its checks in the order written. A malformed line's ERRVAL is `W[59:56]`. -/
def Obligations.KeylineFollowsItsRule : Prop :=
  ∀ (ntok : BitVec 2) (s0 s1 : Bool) (a b : CodePoint) (s : State), s.phase = .load →
    let w : Command := 0x2#4 ++ ntok ++ BitVec.ofBool s0 ++ BitVec.ofBool s1 ++ 0#14 ++ b ++ a
    let whole : Prop := ntok = 2 ∧ s0 = true ∧ s1 = true
    let full : Prop := tableLookup s.fwd a = none ∧ s.fwd.length = s.params.tmax
    decode w = .ok (.keyline ntok s0 s1 a b)
      ∧ (¬ whole → exec (.keyline ntok s0 s1 a b) s
          = .next (errorAt s 1 w (0#17 ++ ntok ++ BitVec.ofBool s0 ++ BitVec.ofBool s1) 0))
      ∧ (whole → ¬ isScalar a → exec (.keyline ntok s0 s1 a b) s = .next (errorAt s 6 w a 0))
      ∧ (whole → isScalar a → ¬ isScalar b → exec (.keyline ntok s0 s1 a b) s = .next (errorAt s 6 w b 1))
      ∧ (whole → isScalar a → isScalar b → full → exec (.keyline ntok s0 s1 a b) s = .next (errorAt s 9 w a 0))
      ∧ (whole → isScalar a → isScalar b → ¬ full →
          exec (.keyline ntok s0 s1 a b) s = .next { s with fwd := tableInsert s.fwd a b })

/-- 40_table_and_iv.md R111, and `FWD[a := b]`: an accepted KEYLINE maps its key to its value, keeps every other key, and adds one
key only if its key was not there; the table stays in canonical form (assumption log 8). The last clause is the rule's example. -/
def Obligations.KeylineMapsItsKeyAndKeepsOthers : Prop :=
  (∀ (a b : CodePoint) (s : State), s.phase = .load → TableSorted s.fwd → isScalar a → isScalar b →
      (tableLookup s.fwd a = none → s.fwd.length < s.params.tmax) →
      ∃ t : State, exec (.keyline 2 true true a b) s = .next t
        ∧ (∀ k, tableLookup t.fwd k = if k = a then some b else tableLookup s.fwd k)
        ∧ t.fwd.length = s.fwd.length + (if tableLookup s.fwd a = none then 1 else 0)
        ∧ TableSorted t.fwd)
    ∧ (∀ s : State, s.phase = .load → s.fwd = [] → 0 < s.params.tmax →
      ∃ t u : State, exec (.keyline 2 true true 0x61 0x78) s = .next t ∧ exec (.keyline 2 true true 0x61 0x79) t = .next u
        ∧ tableLookup u.fwd 0x61 = some 0x79 ∧ u.fwd.length = 1)

/-- 40_table_and_iv.md R114: IVCHAR in phase LOAD. -/
def Obligations.IvcharFollowsItsRule : Prop :=
  ∀ (a : CodePoint) (s : State), s.phase = .load →
    let w : Command := 0x3#4 ++ 0#4 ++ 0#14 ++ 0#21 ++ a
    decode w = .ok (.ivchar a)
      ∧ (¬ isScalar a → exec (.ivchar a) s = .next (errorAt s 6 w a (BitVec.ofNat 32 s.iv.length)))
      ∧ (isScalar a → s.iv.length = s.params.lmax →
          exec (.ivchar a) s = .next (errorAt s 10 w a (BitVec.ofNat 32 s.iv.length)))
      ∧ (isScalar a → s.iv.length ≠ s.params.lmax → exec (.ivchar a) s = .next { s with iv := s.iv ++ [a] })

/-- 40_table_and_iv.md R116, which the spec marks as derived (KEYLINE and IVCHAR may be interleaved): where neither raises, the two orders of a KEYLINE and
an IVCHAR give the same state. -/
def Obligations.KeylineAndIvcharCommute : Prop :=
  ∀ (ntok : BitVec 2) (s0 s1 : Bool) (a b c : CodePoint) (s t u : State), s.phase = .load →
    exec (.keyline ntok s0 s1 a b) s = .next t → t.phase = .load →
    exec (.ivchar c) t = .next u → u.phase = .load →
    ∃ t' : State, exec (.ivchar c) s = .next t' ∧ t'.phase = .load ∧ exec (.keyline ntok s0 s1 a b) t' = .next u

/-- 42_chain_cipher.md R150 and R151: both START commands in phase LOAD. EMPTY_IV comes first; START.ENC takes any table; START.DEC
refuses a table two of whose keys share a value, with the smallest such value. -/
def Obligations.StartEncAndStartDecFollowTheirRules : Prop :=
  decode 0x4000000000000000#64 = .ok .startEnc ∧ decode 0x4100000000000000#64 = .ok .startDec ∧
  ∀ s : State, s.phase = .load →
    let shared : CodePoint → Prop := fun v =>
      ∃ k k', k ≠ k' ∧ tableLookup s.fwd k = some v ∧ tableLookup s.fwd k' = some v
    (s.iv = [] → exec .startEnc s = .next (errorAt s 2 0x4000000000000000#64 0 0)
        ∧ exec .startDec s = .next (errorAt s 2 0x4100000000000000#64 0 0))
      ∧ (s.iv ≠ [] → exec .startEnc s = .next { s with mode := .enc, fb := s.iv, buf := [], phase := .run })
      ∧ (s.iv ≠ [] → TableSorted s.fwd → (∀ v, ¬ shared v) →
          exec .startDec s = .next { s with mode := .dec, fb := s.iv, buf := [], phase := .run })
      ∧ (s.iv ≠ [] → TableSorted s.fwd → ∀ v, shared v → (∀ v', shared v' → v ≤ v') →
          exec .startDec s = .next (errorAt s 4 0x4100000000000000#64 v 0))

/-- 41_segmentation_padding.md R132 with 42_chain_cipher.md R162: DATA in phase RUN. A block that completes goes through the block
function of the mode; a failing lane leaves everything but the error fields. -/
def Obligations.DataFollowsItsRule : Prop :=
  ∀ (a : CodePoint) (s : State), s.phase = .run →
    let w : Command := 0x5#4 ++ 0#4 ++ 0#14 ++ 0#21 ++ a
    let complete : Prop := s.buf.length + 1 = s.iv.length ∧ s.fb.length = s.iv.length
      ∧ (s.mode = .dec → TableSorted s.fwd ∧ Injective s.fwd)
    decode w = .ok (.data a)
      ∧ (¬ isScalar a → exec (.data a) s = .next (errorAt s 6 w a (BitVec.ofNat 32 s.buf.length)))
      ∧ (isScalar a → s.buf.length + 1 < s.iv.length →
          exec (.data a) s = .next { s with buf := s.buf ++ [a], nin := s.nin + 1 })
      ∧ (isScalar a → complete → ∀ out newFb, modeBlock s (s.buf ++ [a]) = .ok out newFb →
          exec (.data a) s = .next
            { s with buf := [], nin := s.nin + 1, oq := s.oq ++ out, fb := newFb, nblk := s.nblk + 1,
                     nout := s.nout + BitVec.ofNat 64 s.iv.length })
      ∧ (isScalar a → complete → ∀ x lane, modeBlock s (s.buf ++ [a]) = .fail x lane →
          exec (.data a) s = .next (errorAt s 5 w x (BitVec.ofNat 32 lane)))

/-- 41_segmentation_padding.md R135: DATAERR in phase RUN. -/
def Obligations.DataerrFollowsItsRule : Prop :=
  decode 0x6000000000000000#64 = .ok .dataerr ∧
  ∀ s : State, s.phase = .run →
    exec .dataerr s = .next (errorAt s 3 0x6000000000000000#64 0 (BitVec.ofNat 32 (s.nin.toNat % 2 ^ 32)))

/-- 41_segmentation_padding.md R137 with 42_chain_cipher.md R162: END in phase RUN, with and without a partial block. -/
def Obligations.EndFollowsItsRule : Prop :=
  decode 0x7000000000000000#64 = .ok .endRun ∧
  ∀ s : State, s.phase = .run →
    let r := s.buf.length
    let cur := s.buf ++ List.replicate (s.iv.length - r) 0#21
    let partialBlock : Prop := 0 < r ∧ r < s.iv.length ∧ s.fb.length = s.iv.length
      ∧ (s.mode = .dec → TableSorted s.fwd ∧ Injective s.fwd)
    (r = 0 → exec .endRun s = .next { s with phase := .done, runOk := true })
      ∧ (partialBlock → ∀ out newFb, modeBlock s cur = .ok out newFb →
          exec .endRun s = .next
            { s with buf := [], npad := s.iv.length - r, oq := s.oq ++ out, fb := newFb, nblk := s.nblk + 1,
                     nout := s.nout + BitVec.ofNat 64 s.iv.length, phase := .done, runOk := true })
      ∧ (partialBlock → ∀ x lane, modeBlock s cur = .fail x lane →
          exec .endRun s = .next (errorAt s 5 0x7000000000000000#64 x (BitVec.ofNat 32 lane)))

/-! ### The datapath -/

/-- 10_state.md R27: Sub and Unsub, with the INV of R26. -/
def Obligations.SubAndUnsubFollowTheirDefinitions : Prop :=
  ∀ t : Table, TableSorted t →
    (∀ c v, tableLookup t c = some v → substitute t c = v)
      ∧ (∀ c, tableLookup t c = none → substitute t c = c)
      ∧ (Injective t → ∀ k c, tableInverse t c = some k ↔ tableLookup t k = some c)
      ∧ (Injective t → ∀ k c, tableLookup t k = some c → unsubstitute t c = k)
      ∧ (∀ c, (∀ k, tableLookup t k ≠ some c) → unsubstitute t c = c)

/-- 42_chain_cipher.md R160: block encryption, lane by lane; the lowest lane whose XOR result is not a scalar value fails. -/
def Obligations.EncryptionIsLanewise : Prop :=
  ∀ (t : Table) (fb cur : List CodePoint), fb.length = cur.length →
    (∀ out newFb, encBlock t fb cur = .ok out newFb ↔
        (∀ (i : Nat) (h : i < fb.length) (h' : i < cur.length), isScalar (fb[i] ^^^ cur[i]) = true)
          ∧ out.length = fb.length ∧ newFb = out
          ∧ ∀ (i : Nat) (h : i < fb.length) (h' : i < cur.length) (h'' : i < out.length),
              out[i] = substitute t (fb[i] ^^^ cur[i]))
      ∧ (∀ x lane, encBlock t fb cur = .fail x lane ↔
        ∃ (h : lane < fb.length) (h' : lane < cur.length), x = fb[lane] ^^^ cur[lane] ∧ isScalar x = false
          ∧ ∀ (j : Nat) (hj : j < lane), isScalar (fb[j] ^^^ cur[j]) = true)

/-- 42_chain_cipher.md R170: block decryption, lane by lane; the new feedback is the raw input block. -/
def Obligations.DecryptionIsLanewise : Prop :=
  ∀ (t : Table) (fb cur : List CodePoint), fb.length = cur.length →
    (∀ out newFb, decBlock t fb cur = .ok out newFb ↔
        (∀ (i : Nat) (h : i < fb.length) (h' : i < cur.length), isScalar (fb[i] ^^^ unsubstitute t cur[i]) = true)
          ∧ out.length = fb.length ∧ newFb = cur
          ∧ ∀ (i : Nat) (h : i < fb.length) (h' : i < cur.length) (h'' : i < out.length),
              out[i] = fb[i] ^^^ unsubstitute t cur[i])
      ∧ (∀ x lane, decBlock t fb cur = .fail x lane ↔
        ∃ (h : lane < fb.length) (h' : lane < cur.length), x = fb[lane] ^^^ unsubstitute t cur[lane] ∧ isScalar x = false
          ∧ ∀ (j : Nat) (hj : j < lane), isScalar (fb[j] ^^^ unsubstitute t cur[j]) = true)

/-- 42_chain_cipher.md R162: ProcessBlock with a block of L characters, inside the word `w` and followed by the rest `after` of its command.
A block that is Ok enters OQ whole; a failing lane raises RESULT_NOT_SCALAR and nothing else changes. -/
def Obligations.ProcessBlockFollowsItsRule : Prop :=
  ∀ (w : Command) (cur : List CodePoint) (after : State → State) (s : State),
    cur.length = s.iv.length → s.fb.length = s.iv.length → (s.mode = .dec → TableSorted s.fwd ∧ Injective s.fwd) →
      (∀ out newFb, modeBlock s cur = .ok out newFb →
          processBlock w cur after s = .next (after
            { s with oq := s.oq ++ out, fb := newFb, nblk := s.nblk + 1, nout := s.nout + BitVec.ofNat 64 s.iv.length }))
        ∧ (∀ x lane, modeBlock s cur = .fail x lane →
          processBlock w cur after s = .next (errorAt s 5 w x (BitVec.ofNat 32 lane)))

/-- 42_chain_cipher.md R163, which the spec marks as derived (the lanes of a block are independent): two blocks that agree on a lane of FB and of the input
give the same output on that lane, whatever the other lanes hold, where both succeed. -/
def Obligations.LanesAreIndependent : Prop :=
  ∀ (t : Table) (fb fb' cur cur' out out' nf nf' : List CodePoint) (i : Nat),
    fb.length = cur.length → fb'.length = cur'.length → fb[i]? = fb'[i]? → cur[i]? = cur'[i]? →
      (encBlock t fb cur = .ok out nf → encBlock t fb' cur' = .ok out' nf' → out[i]? = out'[i]?)
        ∧ (decBlock t fb cur = .ok out nf → decBlock t fb' cur' = .ok out' nf' → out[i]? = out'[i]?)

/-- 42_chain_cipher.md R164, which the spec marks as derived, and the last sentence of 60_exceptions.md R202: when the feedback, the block and the table are ASCII, a
block never fails in either mode, and its output and new feedback are ASCII again. -/
def Obligations.AsciiBlocksNeverFail : Prop :=
  ∀ (s : State) (cur : List CodePoint), TableSorted s.fwd → s.fb.length = cur.length →
    AllAscii s.fb → AllAscii cur → AllAscii (s.fwd.map Prod.fst) → AllAscii (s.fwd.map Prod.snd) →
    ∃ out newFb, modeBlock s cur = .ok out newFb ∧ AllAscii out ∧ AllAscii newFb

/-- 42_chain_cipher.md R172, which the spec marks as derived: for a table that permutes its keys Sub is a bijection with inverse Unsub, and decrypting what a run encrypted,
from the same loaded state, gives the padded payload. For an injective table with a value v that is no key, Sub sends both v and v's
key to v, and Unsub sends v to that key. -/
def Obligations.DecryptionUndoesEncryption : Prop :=
  (∀ t : Table, TableSorted t → PermutesItsKeys t →
      ∀ c, unsubstitute t (substitute t c) = c ∧ substitute t (unsubstitute t c) = c)
    ∧ (∀ (s t : State) (p : List CodePoint), StateInv s → s.phase = .load → s.iv ≠ [] → PermutesItsKeys s.fwd → AllScalar p →
      execAll (.startEnc :: p.map .data ++ [.endRun]) s = .next t → t.phase = .done →
      ∃ u, execAll (.startDec :: t.oq.map .data ++ [.endRun]) s = .next u ∧ u.phase = .done
        ∧ u.oq = padText p s.iv.length)
    ∧ (∀ (t : Table) (k v : CodePoint), TableSorted t → Injective t → tableLookup t k = some v → tableLookup t v = none →
      k ≠ v ∧ substitute t k = v ∧ substitute t v = v ∧ unsubstitute t v = k)

/-- 42_chain_cipher.md R174 with 41_segmentation_padding.md R140 and R141, which the spec marks as derived: from a loaded state, START.ENC, the
payload and END give the encryption of the padded payload's segments, with the counters those sections name; where an XOR result is
not a scalar value, the run ends in RESULT_NOT_SCALAR. -/
def Obligations.EncryptionRunIsTheChain : Prop :=
  ∀ (s : State) (p : List CodePoint), StateInv s → s.phase = .load → s.iv ≠ [] → AllScalar p →
    let l := s.iv.length
    (∀ out, encryptChain s.fwd s.iv (segmentText (padText p l) l) = some out →
        ∃ t, execAll (.startEnc :: p.map .data ++ [.endRun]) s = .next t ∧ t.phase = .done ∧ t.runOk = true ∧ t.oq = out
          ∧ t.nin = BitVec.ofNat 64 p.length ∧ t.npad = (l - p.length % l) % l
          ∧ t.nblk = BitVec.ofNat 64 ((padText p l).length / l) ∧ t.nout = BitVec.ofNat 64 (padText p l).length
          ∧ out.length = (padText p l).length)
      ∧ (encryptChain s.fwd s.iv (segmentText (padText p l) l) = none →
        ∃ t, execAll (.startEnc :: p.map .data ++ [.endRun]) s = .next t ∧ t.phase = .error ∧ t.err = 5 ∧ t.runOk = false)

/-- The same for a decryption run (R174, R140, R141, marked as derived), for an injective table. -/
def Obligations.DecryptionRunIsTheChain : Prop :=
  ∀ (s : State) (p : List CodePoint), StateInv s → s.phase = .load → s.iv ≠ [] → Injective s.fwd → AllScalar p →
    let l := s.iv.length
    (∀ out, decryptChain s.fwd s.iv (segmentText (padText p l) l) = some out →
        ∃ t, execAll (.startDec :: p.map .data ++ [.endRun]) s = .next t ∧ t.phase = .done ∧ t.runOk = true ∧ t.oq = out
          ∧ t.nin = BitVec.ofNat 64 p.length ∧ t.npad = (l - p.length % l) % l
          ∧ t.nblk = BitVec.ofNat 64 ((padText p l).length / l) ∧ t.nout = BitVec.ofNat 64 (padText p l).length
          ∧ out.length = (padText p l).length)
      ∧ (decryptChain s.fwd s.iv (segmentText (padText p l) l) = none →
        ∃ t, execAll (.startDec :: p.map .data ++ [.endRun]) s = .next t ∧ t.phase = .error ∧ t.err = 5 ∧ t.runOk = false)

/-- 30_encoding.md R93 (ENCRYPT and DECRYPT): from any state, the expansion clears the unit, loads the table's pairs in order and the IV, and
then runs START, the payload and END in that loaded state, where the pairs and the IV fit and are scalar values. -/
def Obligations.PseudoCommandsLoadThenRun : Prop :=
  ∀ (s : State) (pairs : List (CodePoint × CodePoint)) (v p : List CodePoint),
    AllScalar (pairs.map Prod.fst) → AllScalar (pairs.map Prod.snd) → AllScalar v →
    pairs.length ≤ s.params.tmax → v.length ≤ s.params.lmax →
    ∃ fwd : Table, TableSorted fwd
      ∧ (∀ k, tableLookup fwd k = (pairs.reverse.find? fun q => q.1 = k).map Prod.snd)
      ∧ execAll (encryptCommands pairs v p) s
          = execAll (.startEnc :: p.map .data ++ [.endRun]) { clearUnit s with iv := v, fwd := fwd }
      ∧ execAll (decryptCommands pairs v p) s
          = execAll (.startDec :: p.map .data ++ [.endRun]) { clearUnit s with iv := v, fwd := fwd }

/-! ### Errors -/

/-- 60_exceptions.md R207: a well-formed command other than NOP and CLEAR in a phase where it is not legal raises SEQUENCE, which records the
phase: KEYLINE, IVCHAR and START outside LOAD, DATA, DATAERR and END outside RUN. -/
def Obligations.OutOfPhaseCommandsRaiseSequence : Prop :=
  ∀ (i : Instr) (s : State) (n : CodePoint),
    (s.phase = .load ∧ n = 0 ∨ s.phase = .run ∧ n = 1 ∨ s.phase = .done ∧ n = 2) →
    (((∃ ntok s0 s1 a b, i = .keyline ntok s0 s1 a b) ∨ (∃ a, i = .ivchar a) ∨ i = .startEnc ∨ i = .startDec) ∧ s.phase ≠ .load
      ∨ ((∃ a, i = .data a) ∨ i = .dataerr ∨ i = .endRun) ∧ s.phase ≠ .run) →
    exec i s = .next (errorAt s 8 (encode i) n 0)

/-- 60_exceptions.md R210 and R211: whatever word raises an error, the new state is the old one except for PHASE and the four error fields;
ERRCMD is the word. -/
def Obligations.ErrorEntryIsPrecise : Prop :=
  ∀ (w : Command) (s t : State), s.phase ≠ .error → execWord w s = .next t → t.phase = .error →
    t = { s with phase := .error, err := t.err, errcmd := w, errval := t.errval, errpos := t.errpos }

/-- 60_exceptions.md section 1 (the column "raised by"): which command raises which code; no reserved code is ever raised. -/
def Obligations.CommandsRaiseOnlyTheirErrors : Prop :=
  ∀ (i : Instr) (s t : State), s.phase ≠ .error → exec i s = .next t → t.phase = .error →
    match i with
    | .nop => False
    | .clear => False
    | .keyline _ _ _ _ _ => t.err = 1 ∨ t.err = 6 ∨ t.err = 8 ∨ t.err = 9
    | .ivchar _ => t.err = 6 ∨ t.err = 8 ∨ t.err = 10
    | .startEnc => t.err = 2 ∨ t.err = 8
    | .startDec => t.err = 2 ∨ t.err = 4 ∨ t.err = 8
    | .data _ => t.err = 5 ∨ t.err = 6 ∨ t.err = 8
    | .dataerr => t.err = 3 ∨ t.err = 8
    | .endRun => t.err = 5 ∨ t.err = 8

/-- 60_exceptions.md R214: in phase ERROR every word but the exact CLEAR word is ignored; CLEAR and the reset signal give the reset state,
and then there is no output of the run. -/
def Obligations.ErrorPhaseIgnoresAllButClear : Prop :=
  ∀ s : State, s.phase = .error →
    (∀ w : Command, w ≠ 0x1000000000000000#64 → execWord w s = .next s)
      ∧ (∀ i : Instr, i ≠ .clear → exec i s = .next s)
      ∧ (∃ t, execWord 0x1000000000000000#64 s = .next t ∧ AtReset t ∧ runOutput t = none)
      ∧ (∀ rest, s.port = none → s.host = .resetSignal :: rest → ∃ t, step s = .next t ∧ AtReset t ∧ runOutput t = none)

/-- 60_exceptions.md section 5 (that errors do not nest): a step in phase ERROR either keeps the error record and the whole unit but OQ, or
is the CLEAR or the reset that gives the reset state. -/
def Obligations.ErrorRecordKeptUntilClear : Prop :=
  ∀ s t : State, s.phase = .error → step s = .next t →
    (t.phase = .error ∧ t.err = s.err ∧ t.errcmd = s.errcmd ∧ t.errval = s.errval ∧ t.errpos = s.errpos
        ∧ t.mode = s.mode ∧ t.runOk = s.runOk ∧ t.iv = s.iv ∧ t.fwd = s.fwd ∧ t.buf = s.buf ∧ t.fb = s.fb
        ∧ t.nin = s.nin ∧ t.nblk = s.nblk ∧ t.nout = s.nout ∧ t.npad = s.npad)
      ∨ (AtReset t ∧ (s.port = some 0x1000000000000000#64 ∨ ∃ rest, s.host = .resetSignal :: rest))

/-! ### Frames -/

/-- No command touches the parameters, the command port, the host's coming actions or the last reply; only CLEAR touches the record of popped
characters (70_reset_and_hazards.md section 1 for the parameters; the rest is the model's own, assumption log 2). -/
def Obligations.CommandsLeavePortsAndParameters : Prop :=
  ∀ (i : Instr) (s t : State), exec i s = .next t →
    t.params = s.params ∧ t.port = s.port ∧ t.host = s.host ∧ t.reply = s.reply ∧ (i ≠ .clear → t.popped = s.popped)

/-- The frame of KEYLINE and IVCHAR (40_table_and_iv.md, "State written: FWD ... only", "State written: IV ... only"; 60_exceptions.md
section 3 where they raise). -/
def Obligations.LoadingFrame : Prop :=
  ∀ (i : Instr) (s t : State), exec i s = .next t →
    ((∃ ntok s0 s1 a b, i = .keyline ntok s0 s1 a b) ∨ (∃ a, i = .ivchar a)) →
      t.mode = s.mode ∧ t.runOk = s.runOk ∧ t.buf = s.buf ∧ t.fb = s.fb ∧ t.oq = s.oq ∧ t.nin = s.nin ∧ t.nblk = s.nblk
        ∧ t.nout = s.nout ∧ t.npad = s.npad
        ∧ ((∃ ntok s0 s1 a b, i = .keyline ntok s0 s1 a b) → t.iv = s.iv)
        ∧ ((∃ a, i = .ivchar a) → t.fwd = s.fwd)
        ∧ (t.phase ≠ .error → t.phase = s.phase ∧ t.err = s.err ∧ t.errcmd = s.errcmd ∧ t.errval = s.errval ∧ t.errpos = s.errpos)

/-- The frame of START.ENC and START.DEC (42_chain_cipher.md, "State written: MODE, FB, BUF, PHASE"). -/
def Obligations.StartFrame : Prop :=
  ∀ (i : Instr) (s t : State), i = .startEnc ∨ i = .startDec → exec i s = .next t →
    t.runOk = s.runOk ∧ t.iv = s.iv ∧ t.fwd = s.fwd ∧ t.oq = s.oq ∧ t.nin = s.nin ∧ t.nblk = s.nblk ∧ t.nout = s.nout
      ∧ t.npad = s.npad
      ∧ (t.phase = .error → t.mode = s.mode ∧ t.fb = s.fb ∧ t.buf = s.buf)
      ∧ (t.phase ≠ .error → t.err = s.err ∧ t.errcmd = s.errcmd ∧ t.errval = s.errval ∧ t.errpos = s.errpos)

/-- The frame of DATA, DATAERR and END (41_segmentation_padding.md, the paragraphs "State written"): none writes MODE, IV or FWD; DATA does
not write NPAD or RUN_OK; END does not write NIN; DATAERR writes only the error state; where no block is processed the queue, FB,
NBLK and NOUT stay; and a block only ever adds to the queue's end. -/
def Obligations.PayloadFrame : Prop :=
  ∀ (i : Instr) (s t : State), exec i s = .next t → ((∃ a, i = .data a) ∨ i = .dataerr ∨ i = .endRun) →
    t.mode = s.mode ∧ t.iv = s.iv ∧ t.fwd = s.fwd
      ∧ ((∃ a, i = .data a) → t.npad = s.npad ∧ t.runOk = s.runOk)
      ∧ (i = .endRun → t.nin = s.nin)
      ∧ (i = .dataerr → t.npad = s.npad ∧ t.runOk = s.runOk ∧ t.nin = s.nin ∧ t.buf = s.buf)
      ∧ (t.nblk = s.nblk → t.oq = s.oq ∧ t.fb = s.fb ∧ t.nout = s.nout ∧ t.npad = s.npad)
      ∧ (∃ out, t.oq = s.oq ++ out)
      ∧ (t.phase ≠ .error → t.err = s.err ∧ t.errcmd = s.errcmd ∧ t.errval = s.errval ∧ t.errpos = s.errpos)

/-! ### The ports and the step -/

/-- A step runs the presented command (00_scope.md R11, 43_control_and_host.md R187): the word at the command port, if it is not held, leaves
the port and is executed; a word that does not decode is executed as an illegal one. The port fields are the model's own (log 2, 9), and so is
that the unit accepts the word before the host's next action (log 3). -/
def Obligations.StepExecutesThePresentedWord : Prop :=
  ∀ (w : Command) (s : State), s.port = some w → isHeld w s = false →
    (∀ i, decode w = .ok i → step s = exec i { s with port := none, reply := .nothing })
      ∧ (∀ e, decode w = .error e → s.phase ≠ .error →
          step s = .next (errorAt { s with port := none, reply := .nothing } 7 w 0 0))
      ∧ (∀ e, decode w = .error e → s.phase = .error → step s = .next { s with port := none, reply := .nothing })

/-- A command write presents the word at an empty port; a host with no action left is idle and nothing changes (60_exceptions.md section 6,
20_memory.md section 1; how the ports stand in State is the model's choice, assumption log 2 and 4). -/
def Obligations.HostWritePresentsTheWord : Prop :=
  ∀ s : State, s.port = none →
    (∀ w rest, s.host = .write w :: rest → step s = .next { s with port := some w, host := rest, reply := .nothing })
      ∧ (s.host = [] → step s = .next s)

/-- 10_state.md R34, the layout of STATUS, with the rest of section 4's map, and that reading writes nothing but the answer. -/
def Obligations.RegisterMapFollowsItsRule : Prop :=
  ∀ s : State,
      (readRegister s 0x00).extractLsb' 0 2
          = (match s.phase with | .load => 0#2 | .run => 1#2 | .done => 2#2 | .error => 3#2)
        ∧ (readRegister s 0x00).getLsbD 2 = (s.mode == .dec)
        ∧ (readRegister s 0x00).getLsbD 3 = s.runOk
        ∧ (readRegister s 0x00).extractLsb' 4 4 = 0#4
        ∧ (readRegister s 0x00).extractLsb' 8 8 = s.err
        ∧ (readRegister s 0x00).extractLsb' 16 48 = 0#48
        ∧ readRegister s 0x01 = BitVec.ofNat 64 s.iv.length
        ∧ readRegister s 0x02 = BitVec.ofNat 64 s.fwd.length
        ∧ readRegister s 0x03 = BitVec.ofNat 64 s.buf.length
        ∧ readRegister s 0x04 = s.nin
        ∧ readRegister s 0x05 = s.nblk
        ∧ readRegister s 0x06 = s.nout
        ∧ readRegister s 0x07 = BitVec.ofNat 64 s.npad
        ∧ readRegister s 0x08 = s.errcmd
        ∧ (readRegister s 0x09).extractLsb' 0 21 = s.errval
        ∧ (readRegister s 0x09).extractLsb' 21 11 = 0#11
        ∧ (readRegister s 0x09).extractLsb' 32 32 = s.errpos
        ∧ (readRegister s 0x0A).extractLsb' 0 32 = BitVec.ofNat 32 s.params.lmax
        ∧ (readRegister s 0x0A).extractLsb' 32 32 = BitVec.ofNat 32 s.params.tmax
        ∧ readRegister s 0x0B = BitVec.ofNat 64 s.oq.length
        ∧ (∀ n : BitVec 8, 0x0C#8 ≤ n → readRegister s n = 0)
        ∧ ∀ n : BitVec 8, readPort n s = { s with reply := .register (readRegister s n) }

/-- 43_control_and_host.md R183 and R184 (REGRD; R184 is marked as derived): a register read, also while a word is held, answers the register and changes nothing else but the
host's own list of coming actions; repeated with a pop between, it answers the same but for OQCOUNT (assumption log 2). -/
def Obligations.RegisterReadsAreServedWithoutEffect : Prop :=
  (∀ (s : State) (n : BitVec 8) (rest : List HostAction), s.host = .read n :: rest →
      (s.port = none ∨ ∃ w, s.port = some w ∧ isHeld w s = true) →
      step s = .next { s with host := rest, reply := .register (readRegister s n) })
    ∧ ∀ (s : State) (n : BitVec 8), n ≠ 0x0B#8 → readRegister (popPort s) n = readRegister s n

/-- 10_state.md section 4 (that the IV characters, the FWD entries, the BUF characters and FB cannot be read): two states that agree on the
lengths, the counters, the status and the error record read the same at every index. -/
def Obligations.RegistersHideTheCipherState : Prop :=
  ∀ (s s' : State) (n : BitVec 8),
    s.phase = s'.phase → s.mode = s'.mode → s.runOk = s'.runOk → s.iv.length = s'.iv.length → s.fwd.length = s'.fwd.length →
    s.buf.length = s'.buf.length → s.oq.length = s'.oq.length → s.nin = s'.nin → s.nblk = s'.nblk → s.nout = s'.nout →
    s.npad = s'.npad → s.err = s'.err → s.errcmd = s'.errcmd → s.errval = s'.errval → s.errpos = s'.errpos →
    s.params = s'.params → readRegister s n = readRegister s' n

/-- 43_control_and_host.md R185 with 30_encoding.md R90: a pop, also while a word is held, answers the head of OQ with VALID and removes it, or
answers 0 from an empty OQ and changes nothing. The host's list, the reply and `popped` are the model's own (assumption log 2). -/
def Obligations.PopAnswersTheHeadOfTheQueue : Prop :=
  ∀ (s : State) (rest : List HostAction), s.host = .pop :: rest →
    (s.port = none ∨ ∃ w, s.port = some w ∧ isHeld w s = true) →
    (s.oq = [] → step s = .next { s with host := rest, reply := .output 0 })
      ∧ (∀ c cs, s.oq = c :: cs →
          ∃ o : BitVec 22, o.getLsbD 21 = true ∧ o.extractLsb' 0 21 = c
            ∧ step s = .next { s with host := rest, oq := cs, popped := s.popped ++ [c], reply := .output o })

/-- 43_control_and_host.md R186: which words are held, and what holding is. A held word stays at the port, the host's next write is not enabled,
and the unit's state does not change by any action but a pop or the reset signal; with an unbounded queue, or an empty one under legal
parameters, nothing is held. That a completing DATA is held whatever its character is, is the model's reading of the rule (DEDUCED, assumption
log 11: the rule's definition after its colon); that a waiting step repeats the state is the model's choice (log 4); the port and the list of
host actions are the model's own (log 2). -/
def Obligations.HoldFollowsItsRule : Prop :=
  (∀ (w : Command) (s : State), isHeld w s = true ↔
      s.phase = .run
        ∧ ((∃ a, decode w = .ok (.data a)) ∧ s.buf.length + 1 = s.iv.length ∨ decode w = .ok .endRun ∧ 0 < s.buf.length)
        ∧ ∃ depth, s.params.oqDepth = some depth ∧ (depth : Int) - (s.iv.length : Int) < (s.oq.length : Int))
    ∧ (∀ (w : Command) (s : State), s.port = some w → isHeld w s = true →
        (∀ w' rest, s.host = .write w' :: rest → step s = .next s)
          ∧ (s.host = [] → step s = .next s)
          ∧ (∀ t, step s = .next t → (∀ rest, s.host ≠ .pop :: rest) → (∀ rest, s.host ≠ .resetSignal :: rest) →
              t = { s with host := t.host, reply := t.reply }))
    ∧ (∀ (w : Command) (s : State), s.params.WF → s.iv.length ≤ s.params.lmax → s.oq = [] → isHeld w s = false)

/-- 70_reset_and_hazards.md R241: the reset signal, also while a word is held, gives the reset state, and the held word is never written; it has
CLEAR's effect; CLEAR is never held; and a step with a held word keeps it held unless the host pops or resets. The port and the list
of host actions stand for the spec's ports (assumption log 2). -/
def Obligations.ResetSignalGivesResetState : Prop :=
  (∀ (s : State) (rest : List HostAction), s.host = .resetSignal :: rest →
      (s.port = none ∨ ∃ w, s.port = some w ∧ isHeld w s = true) →
      (∃ t, step s = .next t ∧ AtReset t ∧ t.params = s.params ∧ t.port = none ∧ t.host = rest)
        ∧ exec .clear { s with port := none, host := rest, reply := .nothing } = step s)
    ∧ (∀ s : State, isHeld 0x1000000000000000#64 s = false)
    ∧ (∀ (w : Command) (s t : State), s.port = some w → isHeld w s = true → step s = .next t →
        (∀ rest, s.host ≠ .pop :: rest) → (∀ rest, s.host ≠ .resetSignal :: rest) → t.port = some w ∧ isHeld w t = true)

/-- 70_reset_and_hazards.md section 4 (progress), as a bound: a host that pops frees a held word after at most as many pops as OQ holds
characters. That the unit then accepts it at once is the model's choice (assumption log 3). -/
def Obligations.PopsFreeAHeldCommand : Prop :=
  ∀ (w : Command) (s : State) (rest : List HostAction), StateInv s → s.port = some w → isHeld w s = true →
    s.host = List.replicate s.oq.length .pop ++ rest →
    ∃ k t, k ≤ s.oq.length ∧ stepMany k s = .next t ∧ t.port = some w ∧ isHeld w t = false ∧ t.buf = s.buf

/-- 70_reset_and_hazards.md section 3 (that a host which waits for a held command without popping hangs): while a word is held and the host's next
action is another write, no number of steps changes anything (that a waiting machine repeats its state: assumption log 4). -/
def Obligations.HostThatDoesNotPopHangs : Prop :=
  ∀ (w w' : Command) (s : State) (rest : List HostAction) (n : Nat), s.port = some w → isHeld w s = true →
    s.host = .write w' :: rest → stepMany n s = .next s

/-- 43_control_and_host.md R186's last sentence (that the hold never changes what a command computes): in phase RUN a pop before a command and a
pop after it give the same state, but for the reply, when the command is not CLEAR. -/
def Obligations.PopsCommuteWithCommands : Prop :=
  ∀ (i : Instr) (s t : State), s.phase = .run → s.oq ≠ [] → i ≠ .clear → exec i s = .next t →
    exec i (popPort s) = .next (popPort t)

/-- 43_control_and_host.md R188: the output of a completed run is what was popped since START followed by what OQ still holds; its length is
NOUT; a pop or a register read does not change it; a run that ended in an error, was abandoned, or has not ended has none. -/
def Obligations.CompletedRunOutputHasNoutCharacters : Prop :=
  (∀ s out, StateInv s → runOutput s = some out → out = s.popped ++ s.oq ∧ BitVec.ofNat 64 out.length = s.nout)
    ∧ (∀ s t rest, s.host = .pop :: rest ∨ (∃ n, s.host = .read n :: rest) → s.port = none → step s = .next t →
        runOutput t = runOutput s)
    ∧ (∀ s, StateInv s → s.phase = .load ∨ s.phase = .run → runOutput s = none)
    ∧ (∀ w s t, StateInv s → s.phase = .run → execWord w s = .next t → t.phase = .error ∨ t.phase = .load → runOutput t = none)

/-- 70_reset_and_hazards.md section 1 (that no rule reads FB in phase LOAD): in phase LOAD two states that differ only in FB give results that
differ at most in FB, and not even there once the run has begun. So the value FB has at reset (assumption log 5) is never seen. -/
def Obligations.FeedbackUnobservableBeforeStart : Prop :=
  ∀ (i : Instr) (s : State) (f : List CodePoint), s.phase = .load →
    ∃ t t' : State, exec i s = .next t ∧ exec i { s with fb := f } = .next t' ∧ { t' with fb := t.fb } = t
      ∧ (t.phase = .run → t'.fb = t.fb)

/-! ### Invariants -/

/-- 70_reset_and_hazards.md R240: the reset state, for any parameters of the unit; every register reads 0 in it, but CAP. The rule gives FB no
value and nothing is said of it. -/
def Obligations.ResetStateFollowsItsRule : Prop :=
  ∀ p : Params, AtReset (State.resetWith p)
    ∧ (∀ n : BitVec 8, n ≠ 0x0A#8 → readRegister (State.resetWith p) n = 0)
    ∧ readRegister (State.resetWith p) 0x0A = BitVec.ofNat 32 p.tmax ++ BitVec.ofNat 32 p.lmax

/-- 10_state.md section 5 at reset: the reset state of a unit with any legal parameters meets the invariant; so does
`State.reset`, whose parameters are the model's choice (assumption log 1). -/
def Obligations.ResetStateMeetsInvariant : Prop :=
  (∀ p : Params, p.WF → StateInv (State.resetWith p)) ∧ StateInv State.reset

/-- 10_state.md section 5: every step from a state with the invariant, reached or not, gives a state with the invariant. -/
def Obligations.EveryStepKeepsInvariant : Prop := ∀ s t : State, StateInv s → step s = .next t → StateInv t

/-- From a state with the invariant no step faults or is refused: the model's own faults (assumption log 6) are never met. -/
def Obligations.InvariantStatesNeverStop : Prop :=
  ∀ s : State, StateInv s → ∃ t, step s = .next t

/-- 10_state.md R22: the values of PHASE, its reset value, and the only phase transitions of a step. The fields `port` and `host` stand for the
spec's ports (assumption log 2). -/
def Obligations.PhaseTransitionsAreTheListed : Prop :=
  (∀ p : Params, (State.resetWith p).phase = .load)
  ∧ (∀ s : State, (readRegister s 0x00).extractLsb' 0 2
      = (match s.phase with | .load => 0#2 | .run => 1#2 | .done => 2#2 | .error => 3#2))
  ∧ ∀ s t : State, step s = .next t →
    t.phase = s.phase
      ∨ (s.phase = .load ∧ t.phase = .run ∧ (s.port = some 0x4000000000000000#64 ∨ s.port = some 0x4100000000000000#64))
      ∨ (s.phase = .run ∧ t.phase = .done ∧ s.port = some 0x7000000000000000#64)
      ∨ (s.phase ≠ .error ∧ t.phase = .error ∧ t.err ≠ 0 ∧ s.port = some t.errcmd)
      ∨ (t.phase = .load ∧ (s.port = some 0x1000000000000000#64 ∨ ∃ rest, s.host = .resetSignal :: rest))

/-- 20_memory.md section 4 and 10_state.md R24, R25 (read-only after loading): a step outside LOAD leaves IV and FWD, unless it gives the
reset state. -/
def Obligations.TableAndIvFixedOutsideLoad : Prop :=
  ∀ s t : State, s.phase ≠ .load → step s = .next t →
    (t.iv = s.iv ∧ t.fwd = s.fwd) ∨ (t.phase = .load ∧ t.iv = [] ∧ t.fwd = [])

/-- 10_state.md R23: the values of MODE, its reset value, and that it is written only by START, from its MODE bit, and by CLEAR and reset. -/
def Obligations.ModeWrittenOnlyByStart : Prop :=
  (∀ p : Params, (State.resetWith p).mode = .enc)
  ∧ (∀ s : State, (readRegister s 0x00).getLsbD 2 = (s.mode == .dec))
  ∧ ∀ s t : State, step s = .next t → t.mode ≠ s.mode →
    (s.phase = .load ∧ t.phase = .run
        ∧ (s.port = some 0x4000000000000000#64 ∧ t.mode = .enc ∨ s.port = some 0x4100000000000000#64 ∧ t.mode = .dec))
      ∨ (t.mode = .enc ∧ (s.port = some 0x1000000000000000#64 ∨ ∃ rest, s.host = .resetSignal :: rest))

/-- 10_state.md R32: RUN_OK is set when END makes PHASE DONE, and cleared only by CLEAR or reset, so an error after DONE leaves it;
its reset value is 0. -/
def Obligations.RunOkSetOnlyByEnd : Prop :=
  (∀ p : Params, (State.resetWith p).runOk = false)
  ∧ ∀ s t : State, step s = .next t →
    (s.runOk = false → t.runOk = true → s.phase = .run ∧ t.phase = .done ∧ s.port = some 0x7000000000000000#64)
      ∧ (s.runOk = true → t.runOk = false → s.port = some 0x1000000000000000#64 ∨ ∃ rest, s.host = .resetSignal :: rest)
      ∧ (s.phase = .run → t.phase = .done → t.runOk = true)
end

