-- ==== Sys2Proof/Laws/Table.lean ====
section
/-!
SUPPORT. What the table operations do: lookup after insertion, the canonical form, the inverse, and the check for an
ambiguous value.
-/

namespace Sys2Proof.Machine

/-! ### Lookup and insertion -/

/-- `FWD[k := v]` maps `k` to `v` and every other character as before. -/
theorem tableLookup_insert (t : Table) (k v c : CodePoint) :
    tableLookup (tableInsert t k v) c = if c = k then some v else tableLookup t c := by
  induction t with
  | nil => simp only [tableInsert, tableLookup, @eq_comm _ k c]
  | cons p t ih =>
    obtain ⟨k', v'⟩ := p
    unfold tableInsert
    by_cases hc : c = k
    · subst hc
      rw [if_pos rfl] at ih ⊢
      split_ifs with h1 h2
      · simp [tableLookup]
      · simp [tableLookup]
      · have hk : ¬ k' = c := fun e => h2 e.symm
        simpa [tableLookup, hk] using ih
    · have hc' : ¬ k = c := fun e => hc e.symm
      rw [if_neg hc] at ih ⊢
      split_ifs with h1 h2
      · simp [tableLookup, hc']
      · subst h2; simp [tableLookup, hc']
      · simp [tableLookup, ih]

/-- In a table in canonical form, lookup is membership of the pair. -/
theorem tableLookup_eq_some_iff {t : Table} (hs : TableSorted t) (k v : CodePoint) :
    tableLookup t k = some v ↔ (k, v) ∈ t := by
  induction t with
  | nil => simp [tableLookup]
  | cons p t ih =>
    obtain ⟨k', v'⟩ := p
    simp only [TableSorted, List.map_cons, List.pairwise_cons] at hs
    unfold tableLookup
    split_ifs with h
    · subst h
      constructor
      · intro hv; simp_all
      · intro hm
        rcases List.mem_cons.1 hm with h | h
        · simp_all
        · exact absurd (hs.1 k' (List.mem_map.2 ⟨_, h, rfl⟩)) (BitVec.lt_irrefl k')
    · rw [ih hs.2, List.mem_cons]
      constructor
      · exact Or.inr
      · rintro (h' | h')
        · exact absurd (congrArg Prod.fst h').symm h
        · exact h'

/-- A key is found exactly when some pair has it. -/
theorem tableLookup_eq_none_iff (t : Table) (k : CodePoint) : tableLookup t k = none ↔ k ∉ t.map Prod.fst := by
  induction t with
  | nil => simp [tableLookup]
  | cons p t ih =>
    obtain ⟨k', v'⟩ := p
    unfold tableLookup
    split_ifs with h
    · simp [h]
    · rw [ih]; simp only [List.map_cons, List.mem_cons, not_or]
      exact ⟨fun h' => ⟨fun e => h e.symm, h'⟩, fun h' => h'.2⟩

/-- The keys after an insertion. -/
theorem tableInsert_keys (t : Table) (k v c : CodePoint) :
    c ∈ (tableInsert t k v).map Prod.fst ↔ c = k ∨ c ∈ t.map Prod.fst := by
  have h := tableLookup_eq_none_iff (tableInsert t k v) c
  rw [tableLookup_insert] at h
  have h' := tableLookup_eq_none_iff t c
  by_cases hc : c = k
  · simp [hc] at h ⊢; exact h
  · simp only [hc, if_false, false_or] at h ⊢
    rw [h'] at h
    exact (not_iff_not.1 h).symm

/-- A value after an insertion is the new value or an old one. -/
theorem tableInsert_values {t : Table} {k v c : CodePoint} (h : c ∈ (tableInsert t k v).map Prod.snd) :
    c = v ∨ c ∈ t.map Prod.snd := by
  induction t with
  | nil => simpa [tableInsert] using h
  | cons p t ih =>
    obtain ⟨k', v'⟩ := p
    unfold tableInsert at h
    split_ifs at h with h1 h2
    · simpa using h
    · simp only [List.map_cons, List.mem_cons] at h ⊢
      tauto
    · simp only [List.map_cons, List.mem_cons] at h ⊢
      rcases h with h | h
      · exact Or.inr (Or.inl h)
      · exact (ih h).imp id Or.inr

/-- Insertion keeps the canonical form. -/
theorem tableInsert_sorted {t : Table} (hs : TableSorted t) (k v : CodePoint) : TableSorted (tableInsert t k v) := by
  induction t with
  | nil => simp [TableSorted, tableInsert]
  | cons p t ih =>
    obtain ⟨k', v'⟩ := p
    have hs' := hs
    simp only [TableSorted, List.map_cons, List.pairwise_cons] at hs'
    unfold tableInsert
    split_ifs with h1 h2
    · simp only [TableSorted, List.map_cons, List.pairwise_cons]
      refine ⟨fun x hx => ?_, hs'⟩
      rcases List.mem_cons.1 hx with rfl | hx
      · exact h1
      · exact BitVec.lt_trans h1 (hs'.1 x hx)
    · subst h2
      simpa [TableSorted] using hs'
    · simp only [TableSorted, List.map_cons, List.pairwise_cons]
      refine ⟨fun x hx => ?_, ih hs'.2⟩
      rcases (tableInsert_keys t k v x).1 hx with rfl | hx
      · bv_omega
      · exact hs'.1 x hx

/-- Insertion adds one key exactly when the key was not there. -/
theorem tableInsert_length {t : Table} (hs : TableSorted t) (k v : CodePoint) :
    (tableInsert t k v).length = t.length + if tableLookup t k = none then 1 else 0 := by
  induction t with
  | nil => simp [tableInsert, tableLookup]
  | cons p t ih =>
    obtain ⟨k', v'⟩ := p
    simp only [TableSorted, List.map_cons, List.pairwise_cons] at hs
    unfold tableInsert
    have hk : ¬ k = k' → ¬ k' = k := fun h e => h e.symm
    split_ifs with h1 h2 h3 h4 h4
    · simp
    · exfalso
      have : k ∈ ((k', v') :: t).map Prod.fst := by
        by_contra hn; exact h2 ((tableLookup_eq_none_iff _ _).2 hn)
      simp only [List.map_cons, List.mem_cons] at this
      rcases this with rfl | h
      · exact BitVec.lt_irrefl _ h1
      · exact BitVec.lt_irrefl _ (BitVec.lt_trans h1 (hs.1 k h))
    · subst h3; simp [tableLookup] at h4
    · simp
    · have : tableLookup t k = none := by
        simpa [tableLookup, hk h3] using h4
      simp [ih hs.2, this]
    · have : tableLookup t k ≠ none := by
        simpa [tableLookup, hk h3] using h4
      simp [ih hs.2, this]

/-! ### The inverse and ambiguous values -/

/-- A value's inverse is a key of that value. -/
theorem tableInverse_mem {t : Table} {c k : CodePoint} (h : tableInverse t c = some k) : (k, c) ∈ t := by
  induction t with
  | nil => simp [tableInverse] at h
  | cons p t ih =>
    obtain ⟨k', v'⟩ := p
    unfold tableInverse at h
    split_ifs at h with hv
    · simp_all
    · exact List.mem_cons_of_mem _ (ih h)

/-- A character has an inverse exactly when it is some key's value. -/
theorem tableInverse_eq_none_iff (t : Table) (c : CodePoint) : tableInverse t c = none ↔ c ∉ t.map Prod.snd := by
  induction t with
  | nil => simp [tableInverse]
  | cons p t ih =>
    obtain ⟨k', v'⟩ := p
    unfold tableInverse
    split_ifs with h
    · simp [h]
    · rw [ih]; simp only [List.map_cons, List.mem_cons, not_or]
      exact ⟨fun h' => ⟨fun e => h e.symm, h'⟩, fun h' => h'.2⟩

/-- `INV(c) = k` exactly when `FWD(k) = c`, for an injective table (10_state.md R26). -/
theorem tableInverse_eq_some_iff {t : Table} (hs : TableSorted t) (hi : Injective t) (c k : CodePoint) :
    tableInverse t c = some k ↔ tableLookup t k = some c := by
  constructor
  · intro h; exact (tableLookup_eq_some_iff hs k c).2 (tableInverse_mem h)
  · intro h
    have hm : c ∈ t.map Prod.snd := List.mem_map.2 ⟨_, (tableLookup_eq_some_iff hs k c).1 h, rfl⟩
    cases hk : tableInverse t c with
    | none => exact absurd hm ((tableInverse_eq_none_iff t c).1 hk)
    | some k' =>
      rw [hi k' k c ((tableLookup_eq_some_iff hs k' c).2 (tableInverse_mem hk)) h]

/-- The least of a list is one of its members and no member is smaller; only the empty list has none. -/
theorem leastOf_spec (l : List CodePoint) :
    (leastOf l = none ↔ l = []) ∧ ∀ v, leastOf l = some v ↔ v ∈ l ∧ ∀ u ∈ l, v ≤ u := by
  induction l with
  | nil => simp [leastOf]
  | cons x xs ih =>
    unfold leastOf
    cases hx : leastOf xs with
    | none =>
      have hnil : xs = [] := ih.1.1 hx
      subst hnil
      simp only [reduceCtorEq, List.cons_ne_nil, Option.some.injEq, true_and, List.mem_singleton]
      refine fun v => ⟨?_, fun h => h.1.symm⟩
      rintro rfl
      exact ⟨rfl, fun u hu => hu ▸ BitVec.le_refl _⟩
    | some u =>
      obtain ⟨hu, hmin⟩ := (ih.2 u).1 hx
      have hanti : ∀ a b : CodePoint, a ≤ b → b ≤ a → a = b := fun a b h h' => BitVec.le_antisymm h h'
      refine ⟨by dsimp only; split_ifs <;> simp, fun v => ?_⟩
      dsimp only
      split_ifs with hle
      · constructor
        · rintro ⟨⟩
          refine ⟨List.mem_cons_self, fun w hw => ?_⟩
          rcases List.mem_cons.1 hw with rfl | hw
          · exact BitVec.le_refl _
          · exact BitVec.le_trans hle (hmin w hw)
        · rintro ⟨hv, hv'⟩
          rcases List.mem_cons.1 hv with rfl | hv
          · rfl
          · exact congrArg some (hanti _ _ (BitVec.le_trans hle (hmin v hv)) (hv' x List.mem_cons_self))
      · have hux : u ≤ x := BitVec.le_of_lt (BitVec.not_le.1 hle)
        constructor
        · rintro ⟨⟩
          refine ⟨List.mem_cons_of_mem _ hu, fun w hw => ?_⟩
          rcases List.mem_cons.1 hw with rfl | hw
          · exact hux
          · exact hmin w hw
        · rintro ⟨hv, hv'⟩
          rcases List.mem_cons.1 hv with rfl | hv
          · exact absurd (hv' u (List.mem_cons_of_mem _ hu)) hle
          · exact congrArg some (hanti _ _ (hmin v hv) (hv' u (List.mem_cons_of_mem _ hu)))

/-- Two pairs of a table in canonical form have the same value twice exactly when two keys map to it. -/
theorem two_le_count_iff {t : Table} (hs : TableSorted t) (v : CodePoint) :
    2 ≤ (t.map Prod.snd).count v ↔ ∃ k k', k ≠ k' ∧ (k, v) ∈ t ∧ (k', v) ∈ t := by
  induction t with
  | nil => simp
  | cons p t ih =>
    obtain ⟨k0, v0⟩ := p
    simp only [TableSorted, List.map_cons, List.pairwise_cons] at hs
    have hne : ∀ k', (k', v) ∈ t → k0 ≠ k' := by
      rintro k' hk' rfl
      exact BitVec.lt_irrefl _ (hs.1 k0 (List.mem_map.2 ⟨_, hk', rfl⟩))
    have ih := ih hs.2
    by_cases hv : v0 = v
    · subst hv
      have hpos : 2 ≤ (List.map Prod.snd ((k0, v0) :: t)).count v0 ↔ ∃ k', (k', v0) ∈ t := by
        simp only [List.map_cons, List.count_cons_self]
        rw [show (2 ≤ List.count v0 (List.map Prod.snd t) + 1) ↔ 0 < List.count v0 (List.map Prod.snd t) by omega,
          List.count_pos_iff, List.mem_map]
        exact ⟨fun ⟨q, hq, e⟩ => ⟨q.1, by rw [← e]; exact hq⟩, fun ⟨k', hk'⟩ => ⟨_, hk', rfl⟩⟩
      rw [hpos]
      constructor
      · rintro ⟨k', hk'⟩
        exact ⟨k0, k', hne k' hk', List.mem_cons_self, List.mem_cons_of_mem _ hk'⟩
      · rintro ⟨k, k', hkk, hk, hk'⟩
        rcases List.mem_cons.1 hk with h | h
        · rcases List.mem_cons.1 hk' with h' | h'
          · cases h; cases h'; exact absurd rfl hkk
          · exact ⟨k', h'⟩
        · exact ⟨k, h⟩
    · have hc : (List.map Prod.snd ((k0, v0) :: t)).count v = (List.map Prod.snd t).count v := by
        simp [hv]
      rw [hc, ih]
      constructor
      · rintro ⟨k, k', hkk, hk, hk'⟩
        exact ⟨k, k', hkk, List.mem_cons_of_mem _ hk, List.mem_cons_of_mem _ hk'⟩
      · rintro ⟨k, k', hkk, hk, hk'⟩
        refine ⟨k, k', hkk, ?_, ?_⟩
        · exact (List.mem_cons.1 hk).resolve_left fun e => hv (congrArg Prod.snd e).symm
        · exact (List.mem_cons.1 hk').resolve_left fun e => hv (congrArg Prod.snd e).symm

/-- The shared values of a table in canonical form are those that two keys map to. -/
theorem mem_sharedValues {t : Table} (hs : TableSorted t) (v : CodePoint) :
    v ∈ sharedValues t ↔ ∃ k k', k ≠ k' ∧ tableLookup t k = some v ∧ tableLookup t k' = some v := by
  simp only [sharedValues, List.mem_filter, decide_eq_true_eq, two_le_count_iff hs, tableLookup_eq_some_iff hs]
  constructor
  · exact fun h => h.2
  · rintro ⟨k, k', hkk, hk, hk'⟩
    exact ⟨List.mem_map.2 ⟨_, hk, rfl⟩, k, k', hkk, hk, hk'⟩

/-- START.DEC's check passes exactly on an injective table (42_chain_cipher.md R151). -/
theorem ambiguousValue_eq_none_iff {t : Table} (hs : TableSorted t) : ambiguousValue t = none ↔ Injective t := by
  rw [ambiguousValue, (leastOf_spec _).1, List.eq_nil_iff_forall_not_mem]
  constructor
  · intro h k k' v hk hk'
    by_contra hkk
    exact h v ((mem_sharedValues hs v).2 ⟨k, k', hkk, hk, hk'⟩)
  · intro h v hv
    obtain ⟨k, k', hkk, hk, hk'⟩ := (mem_sharedValues hs v).1 hv
    exact hkk (h k k' v hk hk')

/-- START.DEC names the smallest value that two keys map to (42_chain_cipher.md R151). -/
theorem ambiguousValue_eq_some_iff {t : Table} (hs : TableSorted t) (v : CodePoint) :
    ambiguousValue t = some v ↔
      (∃ k k', k ≠ k' ∧ tableLookup t k = some v ∧ tableLookup t k' = some v)
        ∧ ∀ u, (∃ k k', k ≠ k' ∧ tableLookup t k = some u ∧ tableLookup t k' = some u) → v ≤ u := by
  rw [ambiguousValue, (leastOf_spec _).2, mem_sharedValues hs]
  simp only [mem_sharedValues hs]

end Sys2Proof.Machine
end

