-- ==== Sys2Proof/Laws/Datapath.lean ====
section
/-!
SUPPORT. What the datapath does: the first failing lane, the two block functions, and ProcessBlock.
-/

namespace Sys2Proof.Machine

/-- XOR of two characters is a character, so only `isScalar` can fail; the NUL character is a scalar value. -/
theorem isScalar_nul : isScalar nul = true := by decide

/-- No lane fails exactly when every XOR result is a scalar value. -/
theorem firstFailure_eq_none_iff (xs : List CodePoint) (n : Nat) : firstFailure xs n = none ↔ AllScalar xs := by
  induction xs generalizing n with
  | nil => simp [firstFailure, AllScalar]
  | cons x xs ih =>
    unfold firstFailure
    split_ifs with h
    · rw [ih]; simp [AllScalar, h]
    · simp [AllScalar, h]

/-- The lane reported is the lowest one whose XOR result is not a scalar value. -/
theorem firstFailure_eq_some_iff (xs : List CodePoint) (n : Nat) (x : CodePoint) (lane : Nat) :
    firstFailure xs n = some (x, lane) ↔
      ∃ i, lane = n + i ∧ xs[i]? = some x ∧ isScalar x = false ∧ ∀ j < i, ∀ y, xs[j]? = some y → isScalar y = true := by
  induction xs generalizing n with
  | nil => simp [firstFailure]
  | cons z xs ih =>
    unfold firstFailure
    split_ifs with h
    · rw [ih]
      constructor
      · rintro ⟨i, rfl, hi, hx, hj⟩
        refine ⟨i + 1, by omega, by simpa using hi, hx, ?_⟩
        intro j hji y hy
        cases j with
        | zero => simp at hy; exact hy ▸ h
        | succ j => exact hj j (by omega) y (by simpa using hy)
      · rintro ⟨i, rfl, hi, hx, hj⟩
        cases i with
        | zero => simp at hi; subst hi; simp [h] at hx
        | succ i =>
          exact ⟨i, by omega, by simpa using hi, hx, fun j hji y hy => hj (j + 1) (by omega) y (by simpa using hy)⟩
    · constructor
      · intro e
        simp only [Option.some.injEq, Prod.mk.injEq] at e
        obtain ⟨rfl, rfl⟩ := e
        exact ⟨0, rfl, rfl, by simpa using h, fun j hj => absurd hj (Nat.not_lt_zero j)⟩
      · rintro ⟨i, rfl, hi, hx, hj⟩
        cases i with
        | zero => simp at hi; subst hi; rfl
        | succ i => exact absurd (hj 0 (by omega) z rfl) h

/-- Block encryption succeeds exactly when no lane fails, and then gives the substituted XOR results twice. -/
theorem encBlock_ok_iff (t : Table) (fb cur out nf : List CodePoint) :
    encBlock t fb cur = .ok out nf ↔
      AllScalar (encXors fb cur) ∧ out = (encXors fb cur).map (substitute t) ∧ nf = out := by
  rw [← firstFailure_eq_none_iff _ 0]
  rw [encBlock]
  cases h : firstFailure (encXors fb cur) 0 with
  | none =>
    simp only [BlockResult.ok.injEq, true_and]
    exact ⟨fun ⟨a, b⟩ => ⟨a.symm, b ▸ a⟩, fun ⟨a, b⟩ => ⟨a.symm, (b.trans a).symm⟩⟩
  | some p => simp

/-- Block encryption fails with the first failing lane. -/
theorem encBlock_fail_iff (t : Table) (fb cur : List CodePoint) (x : CodePoint) (lane : Nat) :
    encBlock t fb cur = .fail x lane ↔ firstFailure (encXors fb cur) 0 = some (x, lane) := by
  rw [encBlock]
  cases h : firstFailure (encXors fb cur) 0 with
  | none => simp
  | some p => obtain ⟨y, j⟩ := p; simp

/-- Block decryption succeeds exactly when no lane fails; the new feedback is the input block. -/
theorem decBlock_ok_iff (t : Table) (fb cur out nf : List CodePoint) :
    decBlock t fb cur = .ok out nf ↔ AllScalar (decXors t fb cur) ∧ out = decXors t fb cur ∧ nf = cur := by
  rw [← firstFailure_eq_none_iff _ 0]
  rw [decBlock]
  cases h : firstFailure (decXors t fb cur) 0 with
  | none =>
    simp only [BlockResult.ok.injEq, true_and]
    exact ⟨fun ⟨a, b⟩ => ⟨a.symm, b.symm⟩, fun ⟨a, b⟩ => ⟨a.symm, b.symm⟩⟩
  | some p => simp

/-- Block decryption fails with the first failing lane. -/
theorem decBlock_fail_iff (t : Table) (fb cur : List CodePoint) (x : CodePoint) (lane : Nat) :
    decBlock t fb cur = .fail x lane ↔ firstFailure (decXors t fb cur) 0 = some (x, lane) := by
  rw [decBlock]
  cases h : firstFailure (decXors t fb cur) 0 with
  | none => simp
  | some p => obtain ⟨y, j⟩ := p; simp

/-- Neither block function answers a fault. -/
theorem modeBlock_ne_undefined (s : State) (cur : List CodePoint) (f : Fault) : modeBlock s cur ≠ .undefined f := by
  unfold modeBlock
  cases s.mode <;> simp only [encBlock, decBlock] <;> split <;> simp

/-- A block of L characters with an FB of L characters, and an injective table in decryption, goes through the block
function of the mode. -/
theorem blockResult_eq {s : State} {cur : List CodePoint} (hc : cur.length = s.iv.length) (hf : s.fb.length = s.iv.length)
    (hd : s.mode = .dec → TableSorted s.fwd ∧ Injective s.fwd) : blockResult s cur = modeBlock s cur := by
  unfold blockResult modeBlock
  rw [if_pos ⟨hc, hf⟩]
  cases hm : s.mode with
  | enc => rfl
  | dec =>
    obtain ⟨hs, hi⟩ := hd hm
    simp [(ambiguousValue_eq_none_iff hs).2 hi]

/-- A result that is no fault came from the block function of the mode. -/
theorem blockResult_cases {s : State} {cur : List CodePoint} {r : BlockResult} (h : blockResult s cur = r)
    (hr : ∀ f, r ≠ .undefined f) :
    cur.length = s.iv.length ∧ s.fb.length = s.iv.length ∧ modeBlock s cur = r := by
  unfold blockResult at h
  by_cases hl : cur.length = s.iv.length ∧ s.fb.length = s.iv.length
  · rw [if_pos hl] at h
    refine ⟨hl.1, hl.2, ?_⟩
    unfold modeBlock
    cases hm : s.mode with
    | enc => rw [hm] at h; exact h
    | dec =>
      rw [hm] at h
      dsimp only at h ⊢
      split_ifs at h with ha
      · exact h
      · exact absurd h.symm (hr _)
  · rw [if_neg hl] at h
    exact absurd h.symm (hr _)

/-- Everything ProcessBlock can do when it answers a next state: push the block's output, or raise RESULT_NOT_SCALAR. -/
theorem processBlock_cases {w : Command} {cur : List CodePoint} {after : State → State} {s t : State}
    (h : processBlock w cur after s = .next t) :
    cur.length = s.iv.length ∧ s.fb.length = s.iv.length
      ∧ ((∃ out nf, modeBlock s cur = .ok out nf ∧ t = after (pushBlock out nf s))
        ∨ ∃ x lane, modeBlock s cur = .fail x lane ∧ t = raiseError .resultNotScalar w x (pos32 lane) s) := by
  unfold processBlock at h
  cases hb : blockResult s cur with
  | ok out nf =>
    rw [hb] at h
    obtain ⟨h1, h2, h3⟩ := blockResult_cases hb (by simp)
    exact ⟨h1, h2, .inl ⟨out, nf, h3, (Host.Outcome.next.inj h).symm⟩⟩
  | fail x lane =>
    rw [hb] at h
    obtain ⟨h1, h2, h3⟩ := blockResult_cases hb (by simp)
    exact ⟨h1, h2, .inr ⟨x, lane, h3, (Host.Outcome.next.inj h).symm⟩⟩
  | undefined f => rw [hb] at h; cases h

/-- ProcessBlock never refuses. -/
theorem processBlock_ne_refused (w : Command) (cur : List CodePoint) (after : State → State) (s : State) (r : Refusal) :
    processBlock w cur after s ≠ .refused r := by
  unfold processBlock
  cases blockResult s cur <;> simp

/-- A block's output and its new feedback hold as many characters as FB and the block do. -/
theorem modeBlock_lengths {s : State} {cur out nf : List CodePoint} (hc : cur.length = s.iv.length)
    (hf : s.fb.length = s.iv.length) (h : modeBlock s cur = .ok out nf) :
    out.length = s.iv.length ∧ nf.length = s.iv.length := by
  unfold modeBlock at h
  cases hm : s.mode with
  | enc =>
    rw [hm] at h
    obtain ⟨-, rfl, rfl⟩ := (encBlock_ok_iff _ _ _ _ _).1 h
    simp [encXors, hc, hf]
  | dec =>
    rw [hm] at h
    obtain ⟨-, rfl, rfl⟩ := (decBlock_ok_iff _ _ _ _ _).1 h
    simp [decXors, hc, hf]

/-- Sub keeps scalar values scalar when the table's values are. -/
theorem substitute_scalar {t : Table} (ht : AllScalar (t.map Prod.snd)) {c : CodePoint} (hc : isScalar c = true) :
    isScalar (substitute t c) = true := by
  unfold substitute
  induction t with
  | nil => simpa [tableLookup] using hc
  | cons p t ih =>
    obtain ⟨k, v⟩ := p
    unfold tableLookup
    split_ifs with hk
    · exact ht v (by simp)
    · exact ih fun u hu => ht u (by simp only [List.map_cons, List.mem_cons]; exact Or.inr hu)

/-- A block's output and its new feedback hold only scalar values. -/
theorem modeBlock_scalar {s : State} {cur out nf : List CodePoint} (ht : AllScalar (s.fwd.map Prod.snd))
    (hc : AllScalar cur) (h : modeBlock s cur = .ok out nf) : AllScalar out ∧ AllScalar nf := by
  unfold modeBlock at h
  cases hm : s.mode with
  | enc =>
    rw [hm] at h
    obtain ⟨hx, rfl, rfl⟩ := (encBlock_ok_iff _ _ _ _ _).1 h
    have : AllScalar ((encXors s.fb cur).map (substitute s.fwd)) := by
      intro c hc'
      obtain ⟨x, hx', rfl⟩ := List.mem_map.1 hc'
      exact substitute_scalar ht (hx x hx')
    exact ⟨this, this⟩
  | dec =>
    rw [hm] at h
    obtain ⟨hx, rfl, rfl⟩ := (decBlock_ok_iff _ _ _ _ _).1 h
    exact ⟨hx, hc⟩

end Sys2Proof.Machine
end

