-- ==== Sys2Proof/Laws/Decode.lean ====
section
/-!
SUPPORT. The fields of an assembled command word, one lemma each, and what the decoder's must-be-zero check answers.
-/

namespace Sys2Proof

theorem opField_commandWord (op sub : BitVec 4) (b a : CodePoint) : opField (commandWord op sub b a) = op := by
  apply BitVec.eq_of_getLsbD_eq
  intro i hi
  have h1 : ¬ 60 + i < 21 := by omega
  have h2 : ¬ 60 + i - 21 < 21 := by omega
  have h3 : ¬ 60 + i - 21 - 21 < 14 := by omega
  have h4 : ¬ 60 + i - 21 - 21 - 14 < 4 := by omega
  have h5 : 60 + i - 21 - 21 - 14 - 4 = i := by omega
  simp only [opField, commandWord, BitVec.getLsbD_extractLsb', BitVec.getLsbD_append]
  simp [hi, h1, h2, h3, h4, h5]

theorem subField_commandWord (op sub : BitVec 4) (b a : CodePoint) : subField (commandWord op sub b a) = sub := by
  apply BitVec.eq_of_getLsbD_eq
  intro i hi
  have h1 : ¬ 56 + i < 21 := by omega
  have h2 : ¬ 56 + i - 21 < 21 := by omega
  have h3 : ¬ 56 + i - 21 - 21 < 14 := by omega
  have h4 : 56 + i - 21 - 21 - 14 < 4 := by omega
  have h5 : 56 + i - 21 - 21 - 14 = i := by omega
  simp only [subField, commandWord, BitVec.getLsbD_extractLsb', BitVec.getLsbD_append]
  simp only [hi, h1, h2, h3, h5]
  simp [hi]

theorem rsvdField_commandWord (op sub : BitVec 4) (b a : CodePoint) : rsvdField (commandWord op sub b a) = 0 := by
  apply BitVec.eq_of_getLsbD_eq
  intro i hi
  have h1 : ¬ 42 + i < 21 := by omega
  have h2 : ¬ 42 + i - 21 < 21 := by omega
  have h3 : 42 + i - 21 - 21 < 14 := by omega
  simp only [rsvdField, commandWord, BitVec.getLsbD_extractLsb', BitVec.getLsbD_append]
  simp [h1, h2, h3]

theorem charB_commandWord (op sub : BitVec 4) (b a : CodePoint) : charB (commandWord op sub b a) = b := by
  apply BitVec.eq_of_getLsbD_eq
  intro i hi
  simp only [charB, commandWord, BitVec.getLsbD_extractLsb', BitVec.getLsbD_append]
  simp [hi]

theorem charA_commandWord (op sub : BitVec 4) (b a : CodePoint) : charA (commandWord op sub b a) = a := by
  apply BitVec.eq_of_getLsbD_eq
  intro i hi
  simp only [charA, commandWord, BitVec.getLsbD_extractLsb', BitVec.getLsbD_append]
  simp [hi]

/-- The bits of SUB where KEYLINE and START read them are the bits of the word. -/
theorem getLsbD_subField (w : Command) (i : Nat) (h : i < 4) : (subField w).getLsbD i = w.getLsbD (56 + i) := by
  simp [subField, h]

/-- The must-be-zero check answers a command only when the unused fields are zero, and then that command. -/
theorem ifZero_ok_iff (unused : Bool) (i j : Instr) : ifZero unused i = .ok j ↔ unused = true ∧ i = j := by
  cases unused <;> simp [ifZero]

end Sys2Proof
end

