-- ==== Sys2Proof/Laws/State.lean ====
section
/-!
SUPPORT. One lemma per field of State and per named update, true by rfl, so that no later proof unfolds a record update.
-/

namespace Sys2Proof.Machine

/-! ### raiseError -/

@[simp] theorem raiseError_phase (c : ErrorCode) (w : Command) (v : CodePoint) (p : BitVec 32) (s : State) : (raiseError c w v p s).phase = .error := rfl
@[simp] theorem raiseError_mode (c : ErrorCode) (w : Command) (v : CodePoint) (p : BitVec 32) (s : State) : (raiseError c w v p s).mode = s.mode := rfl
@[simp] theorem raiseError_runOk (c : ErrorCode) (w : Command) (v : CodePoint) (p : BitVec 32) (s : State) : (raiseError c w v p s).runOk = s.runOk := rfl
@[simp] theorem raiseError_iv (c : ErrorCode) (w : Command) (v : CodePoint) (p : BitVec 32) (s : State) : (raiseError c w v p s).iv = s.iv := rfl
@[simp] theorem raiseError_fwd (c : ErrorCode) (w : Command) (v : CodePoint) (p : BitVec 32) (s : State) : (raiseError c w v p s).fwd = s.fwd := rfl
@[simp] theorem raiseError_buf (c : ErrorCode) (w : Command) (v : CodePoint) (p : BitVec 32) (s : State) : (raiseError c w v p s).buf = s.buf := rfl
@[simp] theorem raiseError_fb (c : ErrorCode) (w : Command) (v : CodePoint) (p : BitVec 32) (s : State) : (raiseError c w v p s).fb = s.fb := rfl
@[simp] theorem raiseError_oq (c : ErrorCode) (w : Command) (v : CodePoint) (p : BitVec 32) (s : State) : (raiseError c w v p s).oq = s.oq := rfl
@[simp] theorem raiseError_nin (c : ErrorCode) (w : Command) (v : CodePoint) (p : BitVec 32) (s : State) : (raiseError c w v p s).nin = s.nin := rfl
@[simp] theorem raiseError_nblk (c : ErrorCode) (w : Command) (v : CodePoint) (p : BitVec 32) (s : State) : (raiseError c w v p s).nblk = s.nblk := rfl
@[simp] theorem raiseError_nout (c : ErrorCode) (w : Command) (v : CodePoint) (p : BitVec 32) (s : State) : (raiseError c w v p s).nout = s.nout := rfl
@[simp] theorem raiseError_npad (c : ErrorCode) (w : Command) (v : CodePoint) (p : BitVec 32) (s : State) : (raiseError c w v p s).npad = s.npad := rfl
@[simp] theorem raiseError_err (c : ErrorCode) (w : Command) (v : CodePoint) (p : BitVec 32) (s : State) : (raiseError c w v p s).err = errorNumber c := rfl
@[simp] theorem raiseError_errcmd (c : ErrorCode) (w : Command) (v : CodePoint) (p : BitVec 32) (s : State) : (raiseError c w v p s).errcmd = w := rfl
@[simp] theorem raiseError_errval (c : ErrorCode) (w : Command) (v : CodePoint) (p : BitVec 32) (s : State) : (raiseError c w v p s).errval = v := rfl
@[simp] theorem raiseError_errpos (c : ErrorCode) (w : Command) (v : CodePoint) (p : BitVec 32) (s : State) : (raiseError c w v p s).errpos = p := rfl
@[simp] theorem raiseError_params (c : ErrorCode) (w : Command) (v : CodePoint) (p : BitVec 32) (s : State) : (raiseError c w v p s).params = s.params := rfl
@[simp] theorem raiseError_port (c : ErrorCode) (w : Command) (v : CodePoint) (p : BitVec 32) (s : State) : (raiseError c w v p s).port = s.port := rfl
@[simp] theorem raiseError_host (c : ErrorCode) (w : Command) (v : CodePoint) (p : BitVec 32) (s : State) : (raiseError c w v p s).host = s.host := rfl
@[simp] theorem raiseError_reply (c : ErrorCode) (w : Command) (v : CodePoint) (p : BitVec 32) (s : State) : (raiseError c w v p s).reply = s.reply := rfl
@[simp] theorem raiseError_popped (c : ErrorCode) (w : Command) (v : CodePoint) (p : BitVec 32) (s : State) : (raiseError c w v p s).popped = s.popped := rfl

/-! ### clearUnit -/

@[simp] theorem clearUnit_phase (s : State) : (clearUnit s).phase = .load := rfl
@[simp] theorem clearUnit_mode (s : State) : (clearUnit s).mode = .enc := rfl
@[simp] theorem clearUnit_runOk (s : State) : (clearUnit s).runOk = false := rfl
@[simp] theorem clearUnit_iv (s : State) : (clearUnit s).iv = [] := rfl
@[simp] theorem clearUnit_fwd (s : State) : (clearUnit s).fwd = [] := rfl
@[simp] theorem clearUnit_buf (s : State) : (clearUnit s).buf = [] := rfl
@[simp] theorem clearUnit_fb (s : State) : (clearUnit s).fb = [] := rfl
@[simp] theorem clearUnit_oq (s : State) : (clearUnit s).oq = [] := rfl
@[simp] theorem clearUnit_nin (s : State) : (clearUnit s).nin = 0 := rfl
@[simp] theorem clearUnit_nblk (s : State) : (clearUnit s).nblk = 0 := rfl
@[simp] theorem clearUnit_nout (s : State) : (clearUnit s).nout = 0 := rfl
@[simp] theorem clearUnit_npad (s : State) : (clearUnit s).npad = 0 := rfl
@[simp] theorem clearUnit_err (s : State) : (clearUnit s).err = 0 := rfl
@[simp] theorem clearUnit_errcmd (s : State) : (clearUnit s).errcmd = 0 := rfl
@[simp] theorem clearUnit_errval (s : State) : (clearUnit s).errval = 0 := rfl
@[simp] theorem clearUnit_errpos (s : State) : (clearUnit s).errpos = 0 := rfl
@[simp] theorem clearUnit_params (s : State) : (clearUnit s).params = s.params := rfl
@[simp] theorem clearUnit_port (s : State) : (clearUnit s).port = s.port := rfl
@[simp] theorem clearUnit_host (s : State) : (clearUnit s).host = s.host := rfl
@[simp] theorem clearUnit_reply (s : State) : (clearUnit s).reply = s.reply := rfl
@[simp] theorem clearUnit_popped (s : State) : (clearUnit s).popped = [] := rfl

/-! ### beginRun -/

@[simp] theorem beginRun_phase (m : Mode) (s : State) : (beginRun m s).phase = .run := rfl
@[simp] theorem beginRun_mode (m : Mode) (s : State) : (beginRun m s).mode = m := rfl
@[simp] theorem beginRun_runOk (m : Mode) (s : State) : (beginRun m s).runOk = s.runOk := rfl
@[simp] theorem beginRun_iv (m : Mode) (s : State) : (beginRun m s).iv = s.iv := rfl
@[simp] theorem beginRun_fwd (m : Mode) (s : State) : (beginRun m s).fwd = s.fwd := rfl
@[simp] theorem beginRun_buf (m : Mode) (s : State) : (beginRun m s).buf = [] := rfl
@[simp] theorem beginRun_fb (m : Mode) (s : State) : (beginRun m s).fb = s.iv := rfl
@[simp] theorem beginRun_oq (m : Mode) (s : State) : (beginRun m s).oq = s.oq := rfl
@[simp] theorem beginRun_nin (m : Mode) (s : State) : (beginRun m s).nin = s.nin := rfl
@[simp] theorem beginRun_nblk (m : Mode) (s : State) : (beginRun m s).nblk = s.nblk := rfl
@[simp] theorem beginRun_nout (m : Mode) (s : State) : (beginRun m s).nout = s.nout := rfl
@[simp] theorem beginRun_npad (m : Mode) (s : State) : (beginRun m s).npad = s.npad := rfl
@[simp] theorem beginRun_err (m : Mode) (s : State) : (beginRun m s).err = s.err := rfl
@[simp] theorem beginRun_errcmd (m : Mode) (s : State) : (beginRun m s).errcmd = s.errcmd := rfl
@[simp] theorem beginRun_errval (m : Mode) (s : State) : (beginRun m s).errval = s.errval := rfl
@[simp] theorem beginRun_errpos (m : Mode) (s : State) : (beginRun m s).errpos = s.errpos := rfl
@[simp] theorem beginRun_params (m : Mode) (s : State) : (beginRun m s).params = s.params := rfl
@[simp] theorem beginRun_port (m : Mode) (s : State) : (beginRun m s).port = s.port := rfl
@[simp] theorem beginRun_host (m : Mode) (s : State) : (beginRun m s).host = s.host := rfl
@[simp] theorem beginRun_reply (m : Mode) (s : State) : (beginRun m s).reply = s.reply := rfl
@[simp] theorem beginRun_popped (m : Mode) (s : State) : (beginRun m s).popped = s.popped := rfl

/-! ### pushBlock -/

@[simp] theorem pushBlock_phase (out nf : List CodePoint) (s : State) : (pushBlock out nf s).phase = s.phase := rfl
@[simp] theorem pushBlock_mode (out nf : List CodePoint) (s : State) : (pushBlock out nf s).mode = s.mode := rfl
@[simp] theorem pushBlock_runOk (out nf : List CodePoint) (s : State) : (pushBlock out nf s).runOk = s.runOk := rfl
@[simp] theorem pushBlock_iv (out nf : List CodePoint) (s : State) : (pushBlock out nf s).iv = s.iv := rfl
@[simp] theorem pushBlock_fwd (out nf : List CodePoint) (s : State) : (pushBlock out nf s).fwd = s.fwd := rfl
@[simp] theorem pushBlock_buf (out nf : List CodePoint) (s : State) : (pushBlock out nf s).buf = s.buf := rfl
@[simp] theorem pushBlock_fb (out nf : List CodePoint) (s : State) : (pushBlock out nf s).fb = nf := rfl
@[simp] theorem pushBlock_oq (out nf : List CodePoint) (s : State) : (pushBlock out nf s).oq = s.oq ++ out := rfl
@[simp] theorem pushBlock_nin (out nf : List CodePoint) (s : State) : (pushBlock out nf s).nin = s.nin := rfl
@[simp] theorem pushBlock_nblk (out nf : List CodePoint) (s : State) : (pushBlock out nf s).nblk = s.nblk + 1 := rfl
@[simp] theorem pushBlock_nout (out nf : List CodePoint) (s : State) : (pushBlock out nf s).nout = s.nout + count64 s.iv.length := rfl
@[simp] theorem pushBlock_npad (out nf : List CodePoint) (s : State) : (pushBlock out nf s).npad = s.npad := rfl
@[simp] theorem pushBlock_err (out nf : List CodePoint) (s : State) : (pushBlock out nf s).err = s.err := rfl
@[simp] theorem pushBlock_errcmd (out nf : List CodePoint) (s : State) : (pushBlock out nf s).errcmd = s.errcmd := rfl
@[simp] theorem pushBlock_errval (out nf : List CodePoint) (s : State) : (pushBlock out nf s).errval = s.errval := rfl
@[simp] theorem pushBlock_errpos (out nf : List CodePoint) (s : State) : (pushBlock out nf s).errpos = s.errpos := rfl
@[simp] theorem pushBlock_params (out nf : List CodePoint) (s : State) : (pushBlock out nf s).params = s.params := rfl
@[simp] theorem pushBlock_port (out nf : List CodePoint) (s : State) : (pushBlock out nf s).port = s.port := rfl
@[simp] theorem pushBlock_host (out nf : List CodePoint) (s : State) : (pushBlock out nf s).host = s.host := rfl
@[simp] theorem pushBlock_reply (out nf : List CodePoint) (s : State) : (pushBlock out nf s).reply = s.reply := rfl
@[simp] theorem pushBlock_popped (out nf : List CodePoint) (s : State) : (pushBlock out nf s).popped = s.popped := rfl

/-! ### closeBlock -/

@[simp] theorem closeBlock_phase (s : State) : (closeBlock s).phase = s.phase := rfl
@[simp] theorem closeBlock_mode (s : State) : (closeBlock s).mode = s.mode := rfl
@[simp] theorem closeBlock_runOk (s : State) : (closeBlock s).runOk = s.runOk := rfl
@[simp] theorem closeBlock_iv (s : State) : (closeBlock s).iv = s.iv := rfl
@[simp] theorem closeBlock_fwd (s : State) : (closeBlock s).fwd = s.fwd := rfl
@[simp] theorem closeBlock_buf (s : State) : (closeBlock s).buf = [] := rfl
@[simp] theorem closeBlock_fb (s : State) : (closeBlock s).fb = s.fb := rfl
@[simp] theorem closeBlock_oq (s : State) : (closeBlock s).oq = s.oq := rfl
@[simp] theorem closeBlock_nin (s : State) : (closeBlock s).nin = s.nin + 1 := rfl
@[simp] theorem closeBlock_nblk (s : State) : (closeBlock s).nblk = s.nblk := rfl
@[simp] theorem closeBlock_nout (s : State) : (closeBlock s).nout = s.nout := rfl
@[simp] theorem closeBlock_npad (s : State) : (closeBlock s).npad = s.npad := rfl
@[simp] theorem closeBlock_err (s : State) : (closeBlock s).err = s.err := rfl
@[simp] theorem closeBlock_errcmd (s : State) : (closeBlock s).errcmd = s.errcmd := rfl
@[simp] theorem closeBlock_errval (s : State) : (closeBlock s).errval = s.errval := rfl
@[simp] theorem closeBlock_errpos (s : State) : (closeBlock s).errpos = s.errpos := rfl
@[simp] theorem closeBlock_params (s : State) : (closeBlock s).params = s.params := rfl
@[simp] theorem closeBlock_port (s : State) : (closeBlock s).port = s.port := rfl
@[simp] theorem closeBlock_host (s : State) : (closeBlock s).host = s.host := rfl
@[simp] theorem closeBlock_reply (s : State) : (closeBlock s).reply = s.reply := rfl
@[simp] theorem closeBlock_popped (s : State) : (closeBlock s).popped = s.popped := rfl

/-! ### finishRun -/

@[simp] theorem finishRun_phase (s : State) : (finishRun s).phase = .done := rfl
@[simp] theorem finishRun_mode (s : State) : (finishRun s).mode = s.mode := rfl
@[simp] theorem finishRun_runOk (s : State) : (finishRun s).runOk = true := rfl
@[simp] theorem finishRun_iv (s : State) : (finishRun s).iv = s.iv := rfl
@[simp] theorem finishRun_fwd (s : State) : (finishRun s).fwd = s.fwd := rfl
@[simp] theorem finishRun_buf (s : State) : (finishRun s).buf = s.buf := rfl
@[simp] theorem finishRun_fb (s : State) : (finishRun s).fb = s.fb := rfl
@[simp] theorem finishRun_oq (s : State) : (finishRun s).oq = s.oq := rfl
@[simp] theorem finishRun_nin (s : State) : (finishRun s).nin = s.nin := rfl
@[simp] theorem finishRun_nblk (s : State) : (finishRun s).nblk = s.nblk := rfl
@[simp] theorem finishRun_nout (s : State) : (finishRun s).nout = s.nout := rfl
@[simp] theorem finishRun_npad (s : State) : (finishRun s).npad = s.npad := rfl
@[simp] theorem finishRun_err (s : State) : (finishRun s).err = s.err := rfl
@[simp] theorem finishRun_errcmd (s : State) : (finishRun s).errcmd = s.errcmd := rfl
@[simp] theorem finishRun_errval (s : State) : (finishRun s).errval = s.errval := rfl
@[simp] theorem finishRun_errpos (s : State) : (finishRun s).errpos = s.errpos := rfl
@[simp] theorem finishRun_params (s : State) : (finishRun s).params = s.params := rfl
@[simp] theorem finishRun_port (s : State) : (finishRun s).port = s.port := rfl
@[simp] theorem finishRun_host (s : State) : (finishRun s).host = s.host := rfl
@[simp] theorem finishRun_reply (s : State) : (finishRun s).reply = s.reply := rfl
@[simp] theorem finishRun_popped (s : State) : (finishRun s).popped = s.popped := rfl

/-! ### closePaddedBlock -/

@[simp] theorem closePaddedBlock_phase (s : State) : (closePaddedBlock s).phase = .done := rfl
@[simp] theorem closePaddedBlock_mode (s : State) : (closePaddedBlock s).mode = s.mode := rfl
@[simp] theorem closePaddedBlock_runOk (s : State) : (closePaddedBlock s).runOk = true := rfl
@[simp] theorem closePaddedBlock_iv (s : State) : (closePaddedBlock s).iv = s.iv := rfl
@[simp] theorem closePaddedBlock_fwd (s : State) : (closePaddedBlock s).fwd = s.fwd := rfl
@[simp] theorem closePaddedBlock_buf (s : State) : (closePaddedBlock s).buf = [] := rfl
@[simp] theorem closePaddedBlock_fb (s : State) : (closePaddedBlock s).fb = s.fb := rfl
@[simp] theorem closePaddedBlock_oq (s : State) : (closePaddedBlock s).oq = s.oq := rfl
@[simp] theorem closePaddedBlock_nin (s : State) : (closePaddedBlock s).nin = s.nin := rfl
@[simp] theorem closePaddedBlock_nblk (s : State) : (closePaddedBlock s).nblk = s.nblk := rfl
@[simp] theorem closePaddedBlock_nout (s : State) : (closePaddedBlock s).nout = s.nout := rfl
@[simp] theorem closePaddedBlock_npad (s : State) : (closePaddedBlock s).npad = s.iv.length - s.buf.length := rfl
@[simp] theorem closePaddedBlock_err (s : State) : (closePaddedBlock s).err = s.err := rfl
@[simp] theorem closePaddedBlock_errcmd (s : State) : (closePaddedBlock s).errcmd = s.errcmd := rfl
@[simp] theorem closePaddedBlock_errval (s : State) : (closePaddedBlock s).errval = s.errval := rfl
@[simp] theorem closePaddedBlock_errpos (s : State) : (closePaddedBlock s).errpos = s.errpos := rfl
@[simp] theorem closePaddedBlock_params (s : State) : (closePaddedBlock s).params = s.params := rfl
@[simp] theorem closePaddedBlock_port (s : State) : (closePaddedBlock s).port = s.port := rfl
@[simp] theorem closePaddedBlock_host (s : State) : (closePaddedBlock s).host = s.host := rfl
@[simp] theorem closePaddedBlock_reply (s : State) : (closePaddedBlock s).reply = s.reply := rfl
@[simp] theorem closePaddedBlock_popped (s : State) : (closePaddedBlock s).popped = s.popped := rfl

/-! ### readPort -/

@[simp] theorem readPort_phase (n : BitVec 8) (s : State) : (readPort n s).phase = s.phase := rfl
@[simp] theorem readPort_mode (n : BitVec 8) (s : State) : (readPort n s).mode = s.mode := rfl
@[simp] theorem readPort_runOk (n : BitVec 8) (s : State) : (readPort n s).runOk = s.runOk := rfl
@[simp] theorem readPort_iv (n : BitVec 8) (s : State) : (readPort n s).iv = s.iv := rfl
@[simp] theorem readPort_fwd (n : BitVec 8) (s : State) : (readPort n s).fwd = s.fwd := rfl
@[simp] theorem readPort_buf (n : BitVec 8) (s : State) : (readPort n s).buf = s.buf := rfl
@[simp] theorem readPort_fb (n : BitVec 8) (s : State) : (readPort n s).fb = s.fb := rfl
@[simp] theorem readPort_oq (n : BitVec 8) (s : State) : (readPort n s).oq = s.oq := rfl
@[simp] theorem readPort_nin (n : BitVec 8) (s : State) : (readPort n s).nin = s.nin := rfl
@[simp] theorem readPort_nblk (n : BitVec 8) (s : State) : (readPort n s).nblk = s.nblk := rfl
@[simp] theorem readPort_nout (n : BitVec 8) (s : State) : (readPort n s).nout = s.nout := rfl
@[simp] theorem readPort_npad (n : BitVec 8) (s : State) : (readPort n s).npad = s.npad := rfl
@[simp] theorem readPort_err (n : BitVec 8) (s : State) : (readPort n s).err = s.err := rfl
@[simp] theorem readPort_errcmd (n : BitVec 8) (s : State) : (readPort n s).errcmd = s.errcmd := rfl
@[simp] theorem readPort_errval (n : BitVec 8) (s : State) : (readPort n s).errval = s.errval := rfl
@[simp] theorem readPort_errpos (n : BitVec 8) (s : State) : (readPort n s).errpos = s.errpos := rfl
@[simp] theorem readPort_params (n : BitVec 8) (s : State) : (readPort n s).params = s.params := rfl
@[simp] theorem readPort_port (n : BitVec 8) (s : State) : (readPort n s).port = s.port := rfl
@[simp] theorem readPort_host (n : BitVec 8) (s : State) : (readPort n s).host = s.host := rfl
@[simp] theorem readPort_reply (n : BitVec 8) (s : State) : (readPort n s).reply = .register (readRegister s n) := rfl
@[simp] theorem readPort_popped (n : BitVec 8) (s : State) : (readPort n s).popped = s.popped := rfl

/-! ### presentWord -/

@[simp] theorem presentWord_phase (w : Command) (s : State) : (presentWord w s).phase = s.phase := rfl
@[simp] theorem presentWord_mode (w : Command) (s : State) : (presentWord w s).mode = s.mode := rfl
@[simp] theorem presentWord_runOk (w : Command) (s : State) : (presentWord w s).runOk = s.runOk := rfl
@[simp] theorem presentWord_iv (w : Command) (s : State) : (presentWord w s).iv = s.iv := rfl
@[simp] theorem presentWord_fwd (w : Command) (s : State) : (presentWord w s).fwd = s.fwd := rfl
@[simp] theorem presentWord_buf (w : Command) (s : State) : (presentWord w s).buf = s.buf := rfl
@[simp] theorem presentWord_fb (w : Command) (s : State) : (presentWord w s).fb = s.fb := rfl
@[simp] theorem presentWord_oq (w : Command) (s : State) : (presentWord w s).oq = s.oq := rfl
@[simp] theorem presentWord_nin (w : Command) (s : State) : (presentWord w s).nin = s.nin := rfl
@[simp] theorem presentWord_nblk (w : Command) (s : State) : (presentWord w s).nblk = s.nblk := rfl
@[simp] theorem presentWord_nout (w : Command) (s : State) : (presentWord w s).nout = s.nout := rfl
@[simp] theorem presentWord_npad (w : Command) (s : State) : (presentWord w s).npad = s.npad := rfl
@[simp] theorem presentWord_err (w : Command) (s : State) : (presentWord w s).err = s.err := rfl
@[simp] theorem presentWord_errcmd (w : Command) (s : State) : (presentWord w s).errcmd = s.errcmd := rfl
@[simp] theorem presentWord_errval (w : Command) (s : State) : (presentWord w s).errval = s.errval := rfl
@[simp] theorem presentWord_errpos (w : Command) (s : State) : (presentWord w s).errpos = s.errpos := rfl
@[simp] theorem presentWord_params (w : Command) (s : State) : (presentWord w s).params = s.params := rfl
@[simp] theorem presentWord_port (w : Command) (s : State) : (presentWord w s).port = some w := rfl
@[simp] theorem presentWord_host (w : Command) (s : State) : (presentWord w s).host = s.host := rfl
@[simp] theorem presentWord_reply (w : Command) (s : State) : (presentWord w s).reply = .nothing := rfl
@[simp] theorem presentWord_popped (w : Command) (s : State) : (presentWord w s).popped = s.popped := rfl

/-! ### resetPort -/

@[simp] theorem resetPort_phase (s : State) : (resetPort s).phase = .load := rfl
@[simp] theorem resetPort_mode (s : State) : (resetPort s).mode = .enc := rfl
@[simp] theorem resetPort_runOk (s : State) : (resetPort s).runOk = false := rfl
@[simp] theorem resetPort_iv (s : State) : (resetPort s).iv = [] := rfl
@[simp] theorem resetPort_fwd (s : State) : (resetPort s).fwd = [] := rfl
@[simp] theorem resetPort_buf (s : State) : (resetPort s).buf = [] := rfl
@[simp] theorem resetPort_fb (s : State) : (resetPort s).fb = [] := rfl
@[simp] theorem resetPort_oq (s : State) : (resetPort s).oq = [] := rfl
@[simp] theorem resetPort_nin (s : State) : (resetPort s).nin = 0 := rfl
@[simp] theorem resetPort_nblk (s : State) : (resetPort s).nblk = 0 := rfl
@[simp] theorem resetPort_nout (s : State) : (resetPort s).nout = 0 := rfl
@[simp] theorem resetPort_npad (s : State) : (resetPort s).npad = 0 := rfl
@[simp] theorem resetPort_err (s : State) : (resetPort s).err = 0 := rfl
@[simp] theorem resetPort_errcmd (s : State) : (resetPort s).errcmd = 0 := rfl
@[simp] theorem resetPort_errval (s : State) : (resetPort s).errval = 0 := rfl
@[simp] theorem resetPort_errpos (s : State) : (resetPort s).errpos = 0 := rfl
@[simp] theorem resetPort_params (s : State) : (resetPort s).params = s.params := rfl
@[simp] theorem resetPort_port (s : State) : (resetPort s).port = none := rfl
@[simp] theorem resetPort_host (s : State) : (resetPort s).host = s.host := rfl
@[simp] theorem resetPort_reply (s : State) : (resetPort s).reply = .nothing := rfl
@[simp] theorem resetPort_popped (s : State) : (resetPort s).popped = [] := rfl

end Sys2Proof.Machine
end

