-- ==== Sys2Proof/Laws/Ops.lean ====
section
/-!
SUPPORT. What the shared operations and the commands can do, said once: one inversion lemma each, which later proofs cite
instead of unfolding the operation.
-/

namespace Sys2Proof.Machine

theorem raiseError_eq_errorAt (c : ErrorCode) (w : Command) (v : CodePoint) (p : BitVec 32) (s : State) :
    raiseError c w v p s = errorAt s (errorNumber c) w v p := rfl

theorem errorNumber_ne_zero (c : ErrorCode) : errorNumber c ≠ 0 := by cases c <;> decide

theorem errorNumber_le (c : ErrorCode) : errorNumber c ≤ 10 := by cases c <;> decide

/-- In the command's own phase the common checks pass. -/
theorem inPhase_of_phase {need : Phase} {w : Command} {rule : State → Result} {s : State} (h : s.phase = need)
    (hn : need ≠ .error) : inPhase need w rule s = rule s := by
  unfold inPhase
  rw [if_neg (h ▸ hn), if_pos h]

/-- Everything the common checks can do: ignore the command in ERROR, run its rule in its phase, or raise SEQUENCE. -/
theorem inPhase_cases {need : Phase} {w : Command} {rule : State → Result} {s : State} {r : Result}
    (h : inPhase need w rule s = r) :
    (s.phase = .error ∧ r = .next s)
      ∨ (s.phase ≠ .error ∧ s.phase = need ∧ rule s = r)
      ∨ (s.phase ≠ .error ∧ s.phase ≠ need
          ∧ r = .next (raiseError .sequence w ((phaseBits s.phase).setWidth 21) 0 s)) := by
  unfold inPhase at h
  split_ifs at h with h1 h2
  · exact .inl ⟨h1, h.symm⟩
  · exact .inr (.inl ⟨h1, h2, h⟩)
  · exact .inr (.inr ⟨h1, h2, h.symm⟩)

/-- Everything a command can do when it answers a next state. -/
inductive ExecCase : Instr → State → State → Prop
  /-- Every command but CLEAR is ignored in phase ERROR. -/
  | ignored (i : Instr) (s : State) (hp : s.phase = .error) (hi : i ≠ .clear) : ExecCase i s s
  | nop (s : State) : ExecCase .nop s s
  | clear (s : State) : ExecCase .clear s (clearUnit s)
  /-- An error, recording the command's own word. -/
  | raised (i : Instr) (s : State) (hp : s.phase ≠ .error) (c : ErrorCode) (v : CodePoint) (p : BitVec 32) :
      ExecCase i s (raiseError c (encode i) v p s)
  | keyLine (a b : CodePoint) (s : State) (hp : s.phase = .load) (ha : isScalar a = true) (hb : isScalar b = true)
      (hroom : tableLookup s.fwd a = none → s.fwd.length ≠ s.params.tmax) :
      ExecCase (.keyline 2 true true a b) s { s with fwd := tableInsert s.fwd a b }
  | ivChar (a : CodePoint) (s : State) (hp : s.phase = .load) (ha : isScalar a = true)
      (hroom : s.iv.length ≠ s.params.lmax) : ExecCase (.ivchar a) s { s with iv := s.iv ++ [a] }
  | startEnc (s : State) (hp : s.phase = .load) (hiv : s.iv ≠ []) : ExecCase .startEnc s (beginRun .enc s)
  | startDec (s : State) (hp : s.phase = .load) (hiv : s.iv ≠ []) (hinj : ambiguousValue s.fwd = none) :
      ExecCase .startDec s (beginRun .dec s)
  | buffered (a : CodePoint) (s : State) (hp : s.phase = .run) (ha : isScalar a = true)
      (hl : s.buf.length + 1 < s.iv.length) :
      ExecCase (.data a) s { s with buf := s.buf ++ [a], nin := s.nin + 1 }
  | block (a : CodePoint) (s : State) (out nf : List CodePoint) (hp : s.phase = .run) (ha : isScalar a = true)
      (hl : s.buf.length + 1 = s.iv.length) (hf : s.fb.length = s.iv.length)
      (hb : modeBlock s (s.buf ++ [a]) = .ok out nf) : ExecCase (.data a) s (closeBlock (pushBlock out nf s))
  | endEmpty (s : State) (hp : s.phase = .run) (hbuf : s.buf = []) : ExecCase .endRun s (finishRun s)
  | endPadded (s : State) (out nf : List CodePoint) (hp : s.phase = .run) (hbuf : s.buf ≠ [])
      (hl : (paddedBlock s).length = s.iv.length) (hf : s.fb.length = s.iv.length)
      (hb : modeBlock s (paddedBlock s) = .ok out nf) : ExecCase .endRun s (closePaddedBlock (pushBlock out nf s))

theorem keyLineOk_iff (ntok : BitVec 2) (s0 s1 : Bool) : keyLineOk ntok s0 s1 = true ↔ ntok = 2 ∧ s0 = true ∧ s1 = true := by
  simp [keyLineOk, and_assoc]

/-- A command that answers a next state did one of the things of `ExecCase`. -/
theorem exec_cases {i : Instr} {s t : State} (h : exec i s = .next t) : ExecCase i s t := by
  cases i with
  | nop => cases h; exact .nop s
  | clear => cases h; exact .clear s
  | keyline ntok s0 s1 a b =>
    rcases inPhase_cases (h : inPhase .load _ _ s = _) with ⟨hp, e⟩ | ⟨hne, hp, e⟩ | ⟨hne, -, e⟩
    · cases e; exact .ignored _ s hp (by simp)
    · unfold loadKeyLine at e
      split_ifs at e with h1 h2 h3 h4
      · cases e; exact .raised _ s hne _ _ _
      · cases e; exact .raised _ s hne _ _ _
      · cases e; exact .raised _ s hne _ _ _
      · cases e; exact .raised _ s hne _ _ _
      · cases e
        obtain ⟨rfl, rfl, rfl⟩ := (keyLineOk_iff _ _ _).1 (by simpa using h1)
        refine .keyLine a b s hp (by simpa using h2) (by simpa using h3) fun hn hl => h4 ?_
        simp [hn, hl]
    · cases e; exact .raised _ s hne _ _ _
  | ivchar a =>
    rcases inPhase_cases (h : inPhase .load _ _ s = _) with ⟨hp, e⟩ | ⟨hne, hp, e⟩ | ⟨hne, -, e⟩
    · cases e; exact .ignored _ s hp (by simp)
    · unfold loadIvChar at e
      split_ifs at e with h1 h2
      · cases e; exact .raised _ s hne _ _ _
      · cases e; exact .raised _ s hne _ _ _
      · cases e; exact .ivChar a s hp (by simpa using h1) h2
    · cases e; exact .raised _ s hne _ _ _
  | startEnc =>
    rcases inPhase_cases (h : inPhase .load _ _ s = _) with ⟨hp, e⟩ | ⟨hne, hp, e⟩ | ⟨hne, -, e⟩
    · cases e; exact .ignored _ s hp (by simp)
    · unfold startEncRule at e
      split_ifs at e with h1
      · cases e; exact .raised _ s hne _ _ _
      · cases e; exact .startEnc s hp h1
    · cases e; exact .raised _ s hne _ _ _
  | startDec =>
    rcases inPhase_cases (h : inPhase .load _ _ s = _) with ⟨hp, e⟩ | ⟨hne, hp, e⟩ | ⟨hne, -, e⟩
    · cases e; exact .ignored _ s hp (by simp)
    · unfold startDecRule at e
      split_ifs at e with h1
      · cases e; exact .raised _ s hne _ _ _
      · cases ha : ambiguousValue s.fwd with
        | none => rw [ha] at e; cases e; exact .startDec s hp h1 ha
        | some v => rw [ha] at e; cases e; exact .raised _ s hne _ _ _
    · cases e; exact .raised _ s hne _ _ _
  | data a =>
    rcases inPhase_cases (h : inPhase .run _ _ s = _) with ⟨hp, e⟩ | ⟨hne, hp, e⟩ | ⟨hne, -, e⟩
    · cases e; exact .ignored _ s hp (by simp)
    · unfold takeCharacter at e
      split_ifs at e with h1 h2
      · cases e; exact .raised _ s hne _ _ _
      · cases e; exact .buffered a s hp (by simpa using h1) h2
      · obtain ⟨hc, hf, ⟨out, nf, hb, rfl⟩ | ⟨x, lane, -, rfl⟩⟩ := processBlock_cases e
        · exact .block a s out nf hp (by simpa using h1) (by simpa using hc) hf hb
        · exact .raised _ s hne _ _ _
    · cases e; exact .raised _ s hne _ _ _
  | dataerr =>
    rcases inPhase_cases (h : inPhase .run _ _ s = _) with ⟨hp, e⟩ | ⟨hne, hp, e⟩ | ⟨hne, -, e⟩
    · cases e; exact .ignored _ s hp (by simp)
    · cases e; exact .raised _ s hne _ _ _
    · cases e; exact .raised _ s hne _ _ _
  | endRun =>
    rcases inPhase_cases (h : inPhase .run _ _ s = _) with ⟨hp, e⟩ | ⟨hne, hp, e⟩ | ⟨hne, -, e⟩
    · cases e; exact .ignored _ s hp (by simp)
    · unfold endPayload at e
      split_ifs at e with h1
      · cases e; exact .endEmpty s hp h1
      · obtain ⟨hc, hf, ⟨out, nf, hb, rfl⟩ | ⟨x, lane, -, rfl⟩⟩ := processBlock_cases e
        · exact .endPadded s out nf hp h1 hc hf hb
        · exact .raised _ s hne _ _ _
    · cases e; exact .raised _ s hne _ _ _

end Sys2Proof.Machine
end

