-- ==== Sys2Proof/Laws/PerInstr.lean ====
section
/-!
SUPPORT. Facts stated once per constructor of `Instr`.
-/

namespace Sys2Proof.Laws.EncodeWellFormed

/-- The word of a command is well-formed (30_encoding.md R88), whatever its operands hold. -/
def Statement (i : Instr) : Prop := WellFormedWord (encode i)

theorem nop : Statement .nop := by unfold Statement; decide

theorem clear : Statement .clear := by unfold Statement; decide

theorem keyline (ntok : BitVec 2) (s0 s1 : Bool) (a b : CodePoint) : Statement (.keyline ntok s0 s1 a b) :=
  .inr (.inl ⟨opField_commandWord _ _ _ _, rsvdField_commandWord _ _ _ _⟩)

theorem ivchar (a : CodePoint) : Statement (.ivchar a) := by
  refine .inr (.inr (.inl ⟨.inl (opField_commandWord _ _ _ _), ?_⟩))
  apply BitVec.eq_of_getLsbD_eq
  intro i hi
  simp only [encode, commandWord, BitVec.getLsbD_extractLsb', BitVec.getLsbD_append, hi]
  rw [if_neg (by omega)]
  simp
  omega

theorem startEnc : Statement .startEnc := by unfold Statement; decide

theorem startDec : Statement .startDec := by unfold Statement; decide

theorem data (a : CodePoint) : Statement (.data a) := by
  refine .inr (.inr (.inl ⟨.inr (opField_commandWord _ _ _ _), ?_⟩))
  apply BitVec.eq_of_getLsbD_eq
  intro i hi
  simp only [encode, commandWord, BitVec.getLsbD_extractLsb', BitVec.getLsbD_append, hi]
  rw [if_neg (by omega)]
  simp
  omega

theorem dataerr : Statement .dataerr := by unfold Statement; decide

theorem endRun : Statement .endRun := by unfold Statement; decide

end Sys2Proof.Laws.EncodeWellFormed
end

