-- ==== Sys2Proof/Laws/Step.lean ====
section
/-!
SUPPORT. What a step can do, said once: the unit accepts the presented word, or the host acts.
-/

namespace Sys2Proof.Machine

/-- Everything the execution of a word can do: the command it decodes to, or the entry for an illegal word. -/
theorem execWord_cases {w : Command} {s : State} {r : Result} (h : execWord w s = r) :
    (∃ i, decode w = .ok i ∧ exec i s = r) ∨ (∃ e, decode w = .error e ∧ r = .next (illegalCommand w s)) := by
  unfold execWord at h
  cases hd : decode w with
  | ok i => rw [hd] at h; exact .inl ⟨i, rfl, h⟩
  | error e => rw [hd] at h; exact .inr ⟨e, rfl, h.symm⟩

/-- A word that decodes is executed as its command. -/
theorem execWord_of_decode {w : Command} {i : Instr} (hd : decode w = .ok i) (s : State) : execWord w s = exec i s := by
  unfold execWord
  rw [hd]

/-- Everything a step can do: accept the word at the port when it is not held, else let the host act. -/
theorem step_cases {s : State} {r : Result} (h : step s = r) :
    (∃ w, s.port = some w ∧ isHeld w s = false ∧ execWord w { s with port := none, reply := .nothing } = r)
      ∨ ((s.port = none ∨ ∃ w, s.port = some w ∧ isHeld w s = true) ∧ r = .next (hostStep s)) := by
  unfold step portStep at h
  cases hp : s.port with
  | none => rw [hp] at h; exact .inr ⟨.inl rfl, h.symm⟩
  | some w =>
    rw [hp] at h
    cases hh : isHeld w s with
    | true =>
      simp only [hh, if_true] at h
      exact .inr ⟨.inr ⟨w, rfl, hh⟩, h.symm⟩
    | false =>
      simp only [hh, Bool.false_eq_true, if_false] at h
      exact .inl ⟨w, rfl, hh, h⟩

/-- When no word can be accepted the step is the host's. -/
theorem step_eq_hostStep {s : State} (h : s.port = none ∨ ∃ w, s.port = some w ∧ isHeld w s = true) :
    step s = .next (hostStep s) := by
  unfold step portStep
  rcases h with h | ⟨w, h, hh⟩
  · rw [h]
  · rw [h]; simp [hh]

/-- A presented word that is not held is accepted. -/
theorem step_eq_execWord {s : State} {w : Command} (h : s.port = some w) (hh : isHeld w s = false) :
    step s = execWord w { s with port := none, reply := .nothing } := by
  unfold step portStep
  rw [h]
  simp [hh, acceptWord]

/-- Everything the host's action can do. -/
theorem hostStep_cases (s : State) :
    hostStep s = s
      ∨ (∃ w rest, s.host = .write w :: rest ∧ s.port = none ∧ hostStep s = presentWord w { s with host := rest })
      ∨ (∃ n rest, s.host = .read n :: rest ∧ hostStep s = readPort n { s with host := rest })
      ∨ (∃ rest, s.host = .pop :: rest ∧ hostStep s = popPort { s with host := rest })
      ∨ (∃ rest, s.host = .resetSignal :: rest ∧ hostStep s = resetPort { s with host := rest }) := by
  unfold hostStep
  cases hh : s.host with
  | nil => exact .inl rfl
  | cons x rest =>
    cases x with
    | write w =>
      by_cases hp : s.port = none
      · exact .inr (.inl ⟨w, rest, rfl, hp, by simp [hp]⟩)
      · exact .inl (by simp [hp])
    | read n => exact .inr (.inr (.inl ⟨n, rest, rfl, rfl⟩))
    | pop => exact .inr (.inr (.inr (.inl ⟨rest, rfl, rfl⟩)))
    | resetSignal => exact .inr (.inr (.inr (.inr ⟨rest, rfl, rfl⟩)))

/-- Everything a pop can do: answer an empty queue, or move the head of OQ to the popped characters. -/
theorem popPort_cases (s : State) :
    (s.oq = [] ∧ popPort s = { s with reply := .output 0 })
      ∨ ∃ c cs, s.oq = c :: cs
          ∧ popPort s = { s with oq := cs, popped := s.popped ++ [c], reply := .output (outputWord c) } := by
  unfold popPort
  cases s.oq with
  | nil => exact .inl ⟨rfl, rfl⟩
  | cons c cs => exact .inr ⟨c, cs, rfl, rfl⟩

/-- A word is held exactly in phase RUN, when it would push a block, and OQ lacks room for one. -/
theorem isHeld_iff (w : Command) (s : State) :
    isHeld w s = true ↔ s.phase = .run ∧ pushesBlock w s = true ∧ lacksRoom s = true := by
  simp [isHeld, and_assoc]

/-- OQ lacks room exactly when the queue is bounded and its room is less than a block. -/
theorem lacksRoom_iff (s : State) :
    lacksRoom s = true ↔ ∃ d, s.params.oqDepth = some d ∧ d < s.oq.length + s.iv.length := by
  unfold lacksRoom
  cases s.params.oqDepth <;> simp

end Sys2Proof.Machine
end

