-- ==== Sys2Proof/Tests/Slice0.lean ====
section
/-!
SUPPORT. Tests and witnesses. The expected values come from spec/95_test_vectors.md (the vector's id stands in each docstring), from
30_encoding.md section 6, or from the bits of an encoding written out by hand; none was read off the model. Each
`witness_<Name>` meets all hypotheses of `Obligations.<Name>`, each clause of it at a boundary value where there are several.
-/

namespace Sys2Proof.Tests

open Sys2Proof Sys2Proof.Machine

set_option Elab.async false

/-! ### Helpers -/

/-- A phase LOAD state with an IV and a table. -/
def loaded (iv : List CodePoint) (t : Table) : State := { State.reset with iv := iv, fwd := t }

/-- A phase RUN state right after START. -/
def started (m : Mode) (iv : List CodePoint) (t : Table) : State := { loaded iv t with phase := .run, mode := m, fb := iv }

/-- `LD4` of the test vectors. -/
def ld4 : State := loaded [0x41, 0x42, 0x43, 0x44] []

/-- `RN4` of the test vectors. -/
def rn4 : State := started .enc [0x41, 0x42, 0x43, 0x44] []

/-- `RN4` with a partial block that has been counted. -/
def rn4With (buf : List CodePoint) : State := { rn4 with buf := buf, nin := BitVec.ofNat 64 buf.length }

/-- A state in ERROR: EMPTY_IV raised from reset by START.ENC. -/
def failed : State := { State.reset with phase := .error, err := 2, errcmd := 0x4000000000000000 }

/-- State H1 of the test vectors, without its command: OQ_DEPTH = 4, one whole block in OQ, three characters in BUF. -/
def fullQueue : State :=
  { started .enc [0x41, 0x42, 0x43, 0x44] [] with
    params := { lmax := 4, tmax := 16, oqDepth := some 4 }, buf := [0x4F, 0x57, 0x4F], fb := [0x09, 0x07, 0x0F, 0x08],
    oq := [0x09, 0x07, 0x0F, 0x08], nin := 7, nblk := 1, nout := 4 }

/-- H1 with its held command at the port and a host that goes on with `actions`. -/
def holding (actions : List HostAction) : State := { fullQueue with port := some 0x5000000000000052, host := actions }

/-- A completed run: B13's "E9 30" in OQ. -/
def completed : State :=
  { loaded [0xE9, 0x30] [] with
    phase := .done, runOk := true, fb := [0xE9, 0x30], oq := [0xE9, 0x30], nin := 2, nblk := 1, nout := 2 }

/-- The next state a result answers, seen through `f`. -/
def after {α : Type} (f : State → α) : Result → Option α
  | .next t => some (f t)
  | _ => none

/-- "err c(val, pos)" of the test vectors, with the phase. -/
def errorOf (s : State) : Phase × BitVec 8 × CodePoint × BitVec 32 := (s.phase, s.err, s.errval, s.errpos)

/-! ### Well-formedness: one ill-formed word for each must-be-zero check, and ill-formed parameters -/

/-- NOP with bit 0, bit 21, bit 42, bit 56 set (C8 for bit 0). -/
theorem test_illFormed_nop : ¬ WellFormedWord 0x0000000000000001 ∧ ¬ WellFormedWord 0x0000000000200000
    ∧ ¬ WellFormedWord 0x0000040000000000 ∧ ¬ WellFormedWord 0x0100000000000000 := by decide

/-- CLEAR with bit 0 set (C4). -/
theorem test_illFormed_clear : ¬ WellFormedWord 0x1000000000000001 := by decide

/-- KEYLINE with RSVD's lowest and highest bit set (K17 for bit 42). -/
theorem test_illFormed_keyline : ¬ WellFormedWord 0x2B0004000B200058 ∧ ¬ WellFormedWord 0x2B8000000B200058 := by decide

/-- IVCHAR with bit 21 set (I7), DATA with a B field (D7), and SUB bits in either. -/
theorem test_illFormed_ivchar_data : ¬ WellFormedWord 0x3000000000200041 ∧ ¬ WellFormedWord 0x500000000B200048
    ∧ ¬ WellFormedWord 0x3800000000000041 ∧ ¬ WellFormedWord 0x5100000000000048 := by decide

/-- START with bit 57 set (S8) and with bit 0 set (S9). -/
theorem test_illFormed_start : ¬ WellFormedWord 0x4200000000000000 ∧ ¬ WellFormedWord 0x4000000000000001 := by decide

/-- DATAERR with bit 0 set (E3), END with bit 55 set. -/
theorem test_illFormed_dataerr_end : ¬ WellFormedWord 0x6000000000000001 ∧ ¬ WellFormedWord 0x7080000000000000 := by decide

/-- The reserved opcodes' first word and the all-ones word (C6, C7). -/
theorem test_illFormed_reserved : ¬ WellFormedWord 0x8000000000000000 ∧ ¬ WellFormedWord 0xFFFFFFFFFFFFFFFF := by decide

/-- 00_scope.md R14 to R16: LMAX = 0, LMAX = 2^32, TMAX = 2^32 and OQ_DEPTH < LMAX are refused. -/
theorem test_illFormed_params :
    ¬ Params.WF { lmax := 0, tmax := 16, oqDepth := none } ∧ ¬ Params.WF { lmax := 2 ^ 32, tmax := 16, oqDepth := none }
      ∧ ¬ Params.WF { lmax := 8, tmax := 2 ^ 32, oqDepth := none } ∧ ¬ Params.WF { lmax := 8, tmax := 16, oqDepth := some 7 } := by
  decide

/-- TMAX = 0 (K15) and OQ_DEPTH = LMAX (L2-H) are legal. -/
theorem test_wellFormed_params :
    Params.WF Params.vectors ∧ Params.WF { lmax := 4, tmax := 0, oqDepth := some 4 } := by decide

/-! ### Decoding: each constructor's word, its fields written out from 30_encoding.md R80 to R87 -/

/-- OP 0000, all else zero. -/
theorem test_decode_nop : decode (0b0000#4 ++ 0#60) = .ok .nop := by decide

/-- OP 0001. -/
theorem test_decode_clear : decode (0b0001#4 ++ 0#60) = .ok .clear := by decide

/-- OP 0010, NTOK 10, S0 1, S1 1, B = 'Y', A = 'X' (K1). -/
theorem test_decode_keyline :
    decode (0b0010#4 ++ 0b10#2 ++ 0b1#1 ++ 0b1#1 ++ 0#14 ++ 0b000000000000001011001#21 ++ 0b000000000000001011000#21)
      = .ok (.keyline 2 true true 0x58 0x59) := by decide

/-- S0 is bit 57 and S1 bit 56: K4's word 0x2A… has S0 = 1, S1 = 0; K5's 0x29… the reverse. -/
theorem test_decode_keyline_marks :
    decode 0x2A0000000B200058 = .ok (.keyline 2 true false 0x58 0x59)
      ∧ decode 0x290000000B200058 = .ok (.keyline 2 false true 0x58 0x59) := by decide

/-- OP 0011, A = 'A' (I1). -/
theorem test_decode_ivchar : decode (0b0011#4 ++ 0#39 ++ 0b000000000000001000001#21) = .ok (.ivchar 0x41) := by decide

/-- OP 0100, bits 59:57 zero, MODE (bit 56) 0. -/
theorem test_decode_startEnc : decode (0b0100#4 ++ 0b000#3 ++ 0b0#1 ++ 0#56) = .ok .startEnc := by decide

/-- OP 0100, MODE 1. -/
theorem test_decode_startDec : decode (0b0100#4 ++ 0b000#3 ++ 0b1#1 ++ 0#56) = .ok .startDec := by decide

/-- OP 0101, A = U+10FFFF. -/
theorem test_decode_data : decode (0b0101#4 ++ 0#39 ++ 0b100001111111111111111#21) = .ok (.data 0x10FFFF) := by decide

/-- OP 0110. -/
theorem test_decode_dataerr : decode (0b0110#4 ++ 0#60) = .ok .dataerr := by decide

/-- OP 0111. -/
theorem test_decode_end : decode (0b0111#4 ++ 0#60) = .ok .endRun := by decide

/-- The words of L2-W that are not well-formed are rejected by name. -/
theorem test_decode_rejects :
    decode 0x4200000000000000 = .error .mustBeZero ∧ decode 0x500000000B200048 = .error .mustBeZero
      ∧ decode 0x0000000000000001 = .error .mustBeZero ∧ decode 0x8000000000000000 = .error .reservedOpcode
      ∧ decode 0xFFFFFFFFFFFFFFFF = .error .reservedOpcode := by decide

/-- 30_encoding.md section 6 and P3: the words of four commands. -/
theorem test_encode :
    encode (.keyline 2 true true 0x51 0x30) = 0x2B00000006000051 ∧ encode (.ivchar 0x6B) = 0x300000000000006B
      ∧ encode .startDec = 0x4100000000000000 ∧ encode (.data 0x5A) = 0x500000000000005A := by decide

/-! ### One command at a time (95_test_vectors.md L2) -/

/-- C1: no change. -/
theorem test_nop : after id (execWord 0 (loaded [0x41, 0x42] [])) = some (loaded [0x41, 0x42] []) := by decide +kernel

/-- C8: NOP with bit 0 set is ILLEGAL_COMMAND. -/
theorem test_nop_illegal : after errorOf (execWord 0x0000000000000001 State.reset) = some (.error, 7, 0, 0) := by
  decide +kernel

/-- C3: CLEAR in ERROR (here SEQUENCE, raised by DATAERR after IV = 41 42) gives R0. -/
theorem test_clear_error :
    after id (exec .clear { loaded [0x41, 0x42] [] with phase := .error, err := 8, errcmd := 0x6000000000000000 })
      = some State.reset := by decide +kernel

/-- C9 in kind: CLEAR in a run empties OQ. -/
theorem test_clear_run :
    after (fun t => (t.phase, t.oq, t.buf, t.nblk)) (exec .clear fullQueue) = some (.load, [], [], 0) := by decide +kernel

/-- K12: a repeated key replaces its value. -/
theorem test_keyline_replaces :
    after (fun t => t.fwd) (execWord 0x2B0000000F200061 (loaded [] [(0x61, 0x78)])) = some [(0x61, 0x79)] := by
  decide +kernel

/-- K11: a malformed line comes before the scalar and the capacity checks. -/
theorem test_keyline_order :
    after errorOf (execWord 0x2A00022000000058 { State.reset with params := { lmax := 8, tmax := 0, oqDepth := none } })
      = some (.error, 1, 0xA, 0) := by decide +kernel

/-- I4: a surrogate at position 1. -/
theorem test_ivchar_surrogate : after errorOf (execWord 0x300000000000DFFF (loaded [0x41] [])) = some (.error, 6, 0xDFFF, 1) := by
  decide +kernel

/-- I3: LMAX = 2 is reached. -/
theorem test_ivchar_tooLong :
    after errorOf (execWord 0x3000000000000043
      { loaded [0x41, 0x42] [] with params := { lmax := 2, tmax := 16, oqDepth := none } }) = some (.error, 10, 0x43, 2) := by
  decide +kernel

/-- S1: START.ENC gives RN4. -/
theorem test_startEnc : after id (exec .startEnc ld4) = some rn4 := by decide +kernel

/-- S5: encryption accepts a non-injective table. -/
theorem test_startEnc_notInjective :
    after (fun t => (t.phase, t.mode)) (exec .startEnc (loaded [0x4B] [(0x61, 0x7A), (0x62, 0x7A)])) = some (.run, .enc) := by
  decide +kernel

/-- S4: the smallest shared value is 0x79. -/
theorem test_startDec_ambiguous :
    after errorOf (exec .startDec (loaded [0x4B] [(0x61, 0x7A), (0x62, 0x7A), (0x63, 0x79), (0x64, 0x79)]))
      = some (.error, 4, 0x79, 0) := by decide +kernel

/-- S7: {61 to 78, 62 to 7A} is injective. -/
theorem test_startDec :
    after (fun t => (t.phase, t.mode)) (exec .startDec (loaded [0x4B] [(0x61, 0x78), (0x62, 0x7A)])) = some (.run, .dec) := by
  decide +kernel

/-- D2: the block "HELL". -/
theorem test_data_block :
    after (fun t => (t.oq, t.fb, t.buf, t.nin, t.nblk, t.nout)) (exec (.data 0x4C) (rn4With [0x48, 0x45, 0x4C]))
      = some ([0x09, 0x07, 0x0F, 0x08], [0x09, 0x07, 0x0F, 0x08], [], 4, 1, 4) := by decide +kernel

/-- B10: Unsub before the XOR, and the raw input as the new feedback. -/
theorem test_data_decrypts :
    after (fun t => (t.oq, t.fb)) (exec (.data 0x7A) (started .dec [0x4B] [(0x61, 0x7A)])) = some ([0x2A], [0x7A]) := by
  decide +kernel

/-- E1: ERRPOS is NIN, and BUF is kept. -/
theorem test_dataerr :
    after (fun t => (errorOf t, t.buf)) (exec .dataerr (rn4With [0x48, 0x45, 0x4C]))
      = some ((.error, 3, 0, 3), [0x48, 0x45, 0x4C]) := by decide +kernel

/-- E2: SEQUENCE in phase LOAD. -/
theorem test_dataerr_sequence : after errorOf (exec .dataerr ld4) = some (.error, 8, 0, 0) := by decide +kernel

/-- N8: the padding lane passes FB through. -/
theorem test_end_pads :
    after (fun t => (t.phase, t.runOk, t.oq, t.npad)) (exec .endRun { started .enc [0x41, 0x3800] [] with buf := [0x41], nin := 1 })
      = some (.done, true, [0x00, 0x3800], 1) := by decide +kernel

/-- N7: a failing padded block leaves the run in ERROR with BUF and NPAD as they were. -/
theorem test_end_fails :
    after (fun t => (errorOf t, t.runOk, t.buf.length, t.npad))
      (exec .endRun { started .enc [0x3800, 0x41] [] with buf := [0xE000], nin := 1 })
      = some ((.error, 5, 0xD800, 0), false, 1, 0) := by decide +kernel

/-! ### The ports -/

/-- R1, R3 and R6. -/
theorem test_registers :
    readRegister State.reset 0x0A = 0x0000001000000008 ∧ readRegister State.reset 0x80 = 0
      ∧ readRegister { rn4With [0x48, 0x45] with phase := .error, err := 6, errval := 0xD800, errpos := 2 } 0x09
          = 0x000000020000D800 := by decide +kernel

/-- D6: STATUS = 0x80B when DATA follows a completed run. -/
theorem test_status_after_done : after (fun t => readRegister t 0x00) (exec (.data 0x48) completed) = some 0x80B := by
  decide +kernel

/-- O3: a pop from OQ = 09 07 answers 0x200009. -/
theorem test_pop : after (fun t => (t.reply, t.oq)) (step { rn4 with oq := [0x09, 0x07], host := [.pop] })
    = some (.output 0x200009, [0x07]) := by decide +kernel

/-- O1: a pop from an empty queue has VALID = 0. -/
theorem test_pop_empty : after (fun t => t.reply) (step { State.reset with host := [.pop] }) = some (.output 0) := by
  decide +kernel

/-- H1: DATA 'R' is held, and a write changes nothing; H4 and H5: END with an empty BUF, NOP and an illegal word are not held. -/
theorem test_hold :
    after id (step (holding [.write 0])) = some (holding [.write 0])
      ∧ isHeld 0x7000000000000000 { fullQueue with buf := [] } = false ∧ isHeld 0 fullQueue = false
      ∧ isHeld 0x8000000000000000 fullQueue = false := by decide +kernel

/-- H2: after one pop |OQ| is 3, and the word is still held; H6: 4 > 6 - 4. -/
theorem test_hold_after_pop :
    after (fun t => (t.reply, isHeld 0x5000000000000052 t)) (step (holding [.pop])) = some (.output 0x200009, true)
      ∧ isHeld 0x5000000000000052 { fullQueue with params := { lmax := 4, tmax := 16, oqDepth := some 6 } } = true := by
  decide +kernel

/-- H3: with room the held DATA 'R' is accepted. -/
theorem test_hold_lifts :
    after (fun t => (t.oq, t.buf, t.nblk, t.port)) (step { holding [] with oq := [], popped := [0x09, 0x07, 0x0F, 0x08] })
      = some ([0x46, 0x50, 0x40, 0x5A], [], 2, none) := by decide +kernel

/-- The word of the table row of START.DEC, placed after reset with an IV, is what the next step executes. -/
theorem test_withFetchWord :
    after (fun t => (t.phase, t.mode)) (step (ld4.withFetchWord 64 0x4100000000000000)) = some (.run, .dec) := by decide +kernel

/-- L1-1: the encryption of "HELLOWORLD" with IV "ABCD" and no table. -/
theorem test_encryptChain :
    encryptChain [] [0x41, 0x42, 0x43, 0x44]
        (segmentText (padText [0x48, 0x45, 0x4C, 0x4C, 0x4F, 0x57, 0x4F, 0x52, 0x4C, 0x44] 4) 4)
      = some [0x09, 0x07, 0x0F, 0x08, 0x46, 0x50, 0x40, 0x5A, 0x0A, 0x14, 0x40, 0x5A] := by decide +kernel

/-- K1 and K2 in the textual form of 30_encoding.md R92. -/
theorem test_assembler :
    assembleLine "KEYLINE 'X', 'Y' ; a pair".toList = .ok [0x2B0000000B200058]
      ∧ assembleLine "KEYLINE ntok=1, s0=1, a='X'".toList = .ok [0x2600000000000058] := by decide +kernel

/-- K6's word, by 30_encoding.md R92's "any field left out is 0" (assumption log 12). -/
theorem test_assembler_bareKeyline :
    assembleLine "KEYLINE".toList = .ok [0x2000000000000000]
      ∧ assembleLine "KEYLINE ntok=0".toList = .ok [0x2000000000000000] := by decide +kernel

/-- A backslash that begins no escape is refused: the model's choice (assumption log 12). -/
theorem test_assembler_backslash : assembleLine "TEXT \"a\\n\"".toList = .error .badToken := by decide +kernel

/-- 30_encoding.md R93: TEXT with an escape. -/
theorem test_assembler_text :
    assembleLine "TEXT \"H\\u10FF\"".toList = .ok [0x5000000000000048, 0x50000000000010FF] := by decide +kernel

/-! ### Witnesses: states that meet the hypotheses of each statement -/

/-- The table of the swap 'a' to 'z', 'z' to 'a' (P4): a permutation of its keys. -/
def swapTable : Table := [(0x61, 0x7A), (0x7A, 0x61)]

theorem swap_lookup (k v : CodePoint) (h : tableLookup swapTable k = some v) : k = 0x61 ∧ v = 0x7A ∨ k = 0x7A ∧ v = 0x61 := by
  simp only [swapTable, tableLookup] at h
  split_ifs at h with h1 h2
  · exact .inl ⟨h1.symm, (Option.some.inj h).symm⟩
  · exact .inr ⟨h2.symm, (Option.some.inj h).symm⟩

theorem swap_injective : Injective swapTable := by
  intro k k' v h h'
  obtain ⟨rfl, rfl⟩ | ⟨rfl, rfl⟩ := swap_lookup k v h
  · obtain ⟨rfl, h⟩ | ⟨rfl, h⟩ := swap_lookup k' _ h'
    · rfl
    · exact absurd h (by decide)
  · obtain ⟨rfl, h⟩ | ⟨rfl, h⟩ := swap_lookup k' _ h'
    · exact absurd h (by decide)
    · rfl

theorem swap_permutes : PermutesItsKeys swapTable := by
  refine ⟨swap_injective, fun k v h => ?_⟩
  obtain ⟨rfl, rfl⟩ | ⟨rfl, rfl⟩ := swap_lookup k v h <;> decide

/-- A one-pair table is injective. -/
theorem pair_injective (a b : CodePoint) : Injective [(a, b)] := by
  intro k k' v h h'
  simp only [tableLookup] at h h'
  split_ifs at h h' with h1 h2
  exact h1.symm.trans h2

/-- The invariant at a loaded state with the swap table and IV "K". -/
theorem loaded_invariant : StateInv (loaded [0x4B] swapTable) := by
  constructor <;> first | decide +kernel | exact List.all_eq_true.1 (by decide) | simp [loaded, State.reset, State.resetWith]

/-- The invariant in the middle of an encryption. -/
theorem running_invariant : StateInv (rn4With [0x48, 0x45]) := by
  constructor <;> first | decide +kernel | exact List.all_eq_true.1 (by decide) | simp [rn4With, rn4, started, loaded, State.reset, State.resetWith]

/-- The invariant with a full queue. -/
theorem fullQueue_invariant : StateInv fullQueue := by
  constructor <;> first | decide +kernel | exact List.all_eq_true.1 (by decide) | simp [fullQueue, started, loaded, State.reset, State.resetWith]

/-- The invariant with a full queue and a held word, whatever the host does next. -/
theorem holding_invariant (actions : List HostAction) : StateInv (holding actions) :=
  have h := fullQueue_invariant
  ⟨h.params, h.load, h.active, h.running, h.finished, h.error_iff, h.error_code, h.error_clear, h.table_sorted, h.table_room,
    h.iv_room, h.queue_room, h.scalar_iv, h.scalar_keys, h.scalar_values, h.scalar_buf, h.scalar_fb, h.scalar_oq, h.inverse,
    h.nout_blocks, h.nout_queue, h.pad_room⟩

/-- The invariant after a completed run. -/
theorem completed_invariant : StateInv completed := by
  constructor <;> first | decide +kernel | exact List.all_eq_true.1 (by decide) | simp [completed, loaded, State.reset, State.resetWith]

theorem witness_EncodeOfDecodeIsIdentity : decode 0x2B0000000B200058 = .ok (.keyline 2 true true 0x58 0x59) := by decide

/-- Both phases' clauses, an illegal word of each kind, and the lowest opcode of the reserved range. -/
theorem witness_IllegalWordsRaiseIllegalCommand :
    ¬ WellFormedWord 0x8000000000000000 ∧ ¬ WellFormedWord 0x0000000000000001 ∧ State.reset.phase ≠ .error ∧ failed.phase = .error
      ∧ 0x8#4 ≤ (0x8000000000000000#64).extractLsb' 60 4 := by decide

theorem witness_NopHasNoEffect :
    (0x0FFFFFFFFFFFFFFF#64).extractLsb' 60 4 = 0x0#4 ∧ (0x0FFFFFFFFFFFFFFF#64) ≠ 0x0000000000000000#64
      ∧ State.reset.phase ≠ .error := by decide

theorem witness_ClearGivesResetState :
    (0x1000000000000001#64).extractLsb' 60 4 = 0x1#4 ∧ (0x1000000000000001#64) ≠ 0x1000000000000000#64
      ∧ State.reset.phase ≠ .error ∧ failed.phase = .error := by decide

/-- A clause each: one token; U+D800 and U+110000, the first values past a range's end; TMAX = 0; room for one key of TMAX = 1. -/
theorem witness_KeylineFollowsItsRule :
    (loaded [] []).phase = .load ∧ ¬ ((1#2) = 2 ∧ true = true ∧ false = true) ∧ ¬ isScalar 0xD800 ∧ isScalar 0xD7FF
      ∧ ¬ isScalar 0x110000 ∧ isScalar 0x10FFFF
      ∧ (tableLookup [] 0x58 = none
          ∧ ([] : Table).length = { State.reset with params := { lmax := 1, tmax := 0, oqDepth := none } }.params.tmax)
      ∧ ¬ (tableLookup [] 0x58 = none
          ∧ ([] : Table).length = { State.reset with params := { lmax := 1, tmax := 1, oqDepth := none } }.params.tmax) := by
  decide +kernel

/-- A key already there in a full table, and a new key with room for one. -/
theorem witness_KeylineMapsItsKeyAndKeepsOthers :
    (loaded [] [(0x61, 0x78)]).phase = .load ∧ TableSorted [(0x61#21, 0x78#21)] ∧ isScalar 0x61 ∧ isScalar 0xE000
      ∧ (tableLookup [(0x61, 0x78)] 0x61 = none → [(0x61#21, 0x78#21)].length < 1)
      ∧ (tableLookup [(0x61, 0x78)] 0x62 = none → [(0x61#21, 0x78#21)].length < 2)
      ∧ State.reset.fwd = [] ∧ 0 < State.reset.params.tmax := by decide +kernel

/-- A clause each: U+D800; IVLEN = LMAX = 8; IVLEN = 7. -/
theorem witness_IvcharFollowsItsRule :
    State.reset.phase = .load ∧ ¬ isScalar 0xD800 ∧ isScalar 0x41
      ∧ (loaded (List.replicate 8 0x41) []).iv.length = State.reset.params.lmax
      ∧ (loaded (List.replicate 7 0x41) []).iv.length ≠ State.reset.params.lmax := by decide +kernel

theorem witness_KeylineAndIvcharCommute :
    ∃ t u : State, State.reset.phase = .load ∧ exec (.keyline 2 true true 0x58 0x59) State.reset = .next t ∧ t.phase = .load
      ∧ exec (.ivchar 0x41) t = .next u ∧ u.phase = .load := ⟨_, _, rfl, rfl, rfl, rfl, rfl⟩

/-- A clause each: no IV; an injective table; two keys that share 0x7A. -/
theorem witness_StartEncAndStartDecFollowTheirRules :
    State.reset.phase = .load ∧ State.reset.iv = [] ∧ (loaded [0x4B] swapTable).iv ≠ [] ∧ TableSorted swapTable
      ∧ (∀ v, ¬ ∃ k k', k ≠ k' ∧ tableLookup swapTable k = some v ∧ tableLookup swapTable k' = some v)
      ∧ TableSorted [(0x61#21, 0x7A#21), (0x62, 0x7A)]
      ∧ (∃ k k', k ≠ k' ∧ tableLookup [(0x61, 0x7A), (0x62, 0x7A)] k = some 0x7A
          ∧ tableLookup [(0x61, 0x7A), (0x62, 0x7A)] k' = some 0x7A)
      ∧ ∀ v', (∃ k k', k ≠ k' ∧ tableLookup [(0x61, 0x7A), (0x62, 0x7A)] k = some v'
          ∧ tableLookup [(0x61, 0x7A), (0x62, 0x7A)] k' = some v') → 0x7A#21 ≤ v' := by
  refine ⟨rfl, rfl, by decide, by decide, ?_, by decide, ⟨0x61, 0x62, by decide, by decide, by decide⟩, ?_⟩
  · rintro v ⟨k, k', hk, h, h'⟩
    exact hk (swap_injective k k' v h h')
  · rintro v ⟨k, _, _, h, _⟩
    simp only [tableLookup] at h
    split_ifs at h <;> cases h <;> decide

/-- A clause each: a surrogate; BUF short of the last place by one; a block that succeeds and one that fails (B3, lane 1). -/
theorem witness_DataFollowsItsRule :
    rn4.phase = .run ∧ ¬ isScalar 0xD800 ∧ isScalar 0x4C ∧ (rn4With [0x48, 0x45]).buf.length + 1 < rn4.iv.length
      ∧ (rn4With [0x48, 0x45, 0x4C]).buf.length + 1 = rn4.iv.length ∧ rn4.fb.length = rn4.iv.length ∧ rn4.mode ≠ .dec
      ∧ modeBlock (rn4With [0x48, 0x45, 0x4C]) [0x48, 0x45, 0x4C, 0x4C] = .ok [0x09, 0x07, 0x0F, 0x08] [0x09, 0x07, 0x0F, 0x08]
      ∧ modeBlock (started .enc [0x61, 0x0F0000] []) [0x61, 0x10FFFF] = .fail 0x1FFFFF 1 := by decide +kernel

/-- The decryption case of DATA and END: a sorted, injective table (B10's input, with the swap table). -/
theorem witness_DataFollowsItsRule_dec :
    (started .dec [0x4B] swapTable).phase = .run ∧ (started .dec [0x4B] swapTable).buf.length + 1 = 1
      ∧ TableSorted swapTable ∧ Injective swapTable
      ∧ modeBlock (started .dec [0x4B] swapTable) [0x7A] = .ok [0x2A] [0x7A] :=
  ⟨rfl, rfl, by decide, swap_injective, by decide +kernel⟩

theorem witness_DataerrFollowsItsRule : (rn4With [0x48]).phase = .run := rfl

/-- A clause each: no partial block; a partial block that succeeds (N8) and one that fails (N7). -/
theorem witness_EndFollowsItsRule :
    rn4.phase = .run ∧ rn4.buf.length = 0 ∧ 0 < [0x41#21].length ∧ [0x41#21].length < 2
      ∧ modeBlock (started .enc [0x41, 0x3800] []) ([0x41] ++ List.replicate 1 0) = .ok [0x00, 0x3800] [0x00, 0x3800]
      ∧ modeBlock (started .enc [0x3800, 0x41] []) ([0xE000] ++ List.replicate 1 0) = .fail 0xD800 0 := by decide +kernel

/-- A clause each: a key, no key, a value of an injective table, no value. -/
theorem witness_SubAndUnsubFollowTheirDefinitions :
    TableSorted [(0x58#21, 0x59#21)] ∧ tableLookup [(0x58, 0x59)] 0x58 = some 0x59 ∧ tableLookup [(0x58, 0x59)] 0x59 = none
      ∧ Injective [(0x58, 0x59)] ∧ ∀ k, tableLookup [(0x58, 0x59)] k ≠ some 0x58 := by
  refine ⟨by decide, by decide, by decide, pair_injective _ _, fun k h => ?_⟩
  simp only [tableLookup] at h
  split_ifs at h
  exact absurd (Option.some.inj h) (by decide)

/-- B4's two failing lanes, and a block that succeeds. -/
theorem witness_EncryptionIsLanewise :
    [0x0F0000#21, 0x3800].length = [0x10FFFF#21, 0xE000].length
      ∧ encBlock [] [0x0F0000, 0x3800] [0x10FFFF, 0xE000] = .fail 0x1FFFFF 0
      ∧ encBlock [] [0x41] [0x41] = .ok [0] [0] := by decide +kernel

theorem witness_DecryptionIsLanewise :
    [0x3800#21].length = [0xE000#21].length ∧ decBlock [] [0x3800] [0xE000] = .fail 0xD800 0
      ∧ decBlock swapTable [0x4B] [0x7A] = .ok [0x2A] [0x7A] := by decide +kernel

/-- A block that succeeds and one that fails in mode ENC, and one in mode DEC. -/
theorem witness_ProcessBlockFollowsItsRule :
    [0x61#21, 0x10FFFF].length = (started .enc [0x61, 0x0F0000] []).iv.length
      ∧ (started .enc [0x61, 0x0F0000] []).fb.length = (started .enc [0x61, 0x0F0000] []).iv.length
      ∧ (started .enc [0x61, 0x0F0000] []).mode ≠ .dec
      ∧ modeBlock (started .enc [0x61, 0x0F0000] []) [0x61, 0x10FFFF] = .fail 0x1FFFFF 1
      ∧ modeBlock (started .enc [0x61, 0x0F0000] []) [0x61, 0x0F0000] = .ok [0, 0] [0, 0]
      ∧ TableSorted swapTable ∧ Injective swapTable ∧ modeBlock (started .dec [0x4B] swapTable) [0x7A] = .ok [0x2A] [0x7A] :=
  ⟨rfl, rfl, by decide, by decide +kernel, by decide +kernel, by decide, swap_injective, by decide +kernel⟩

/-- Lane 1 of two blocks that differ in lane 0. -/
theorem witness_LanesAreIndependent :
    [0x41#21, 0x42].length = [0x48#21, 0x45].length ∧ [0x50#21, 0x42].length = [0x51#21, 0x45].length
      ∧ [0x41#21, 0x42][1]? = [0x50#21, 0x42][1]? ∧ [0x48#21, 0x45][1]? = [0x51#21, 0x45][1]?
      ∧ encBlock [] [0x41, 0x42] [0x48, 0x45] = .ok [0x09, 0x07] [0x09, 0x07]
      ∧ encBlock [] [0x50, 0x42] [0x51, 0x45] = .ok [0x01, 0x07] [0x01, 0x07]
      ∧ decBlock [] [0x41, 0x42] [0x48, 0x45] = .ok [0x09, 0x07] [0x48, 0x45]
      ∧ decBlock [] [0x50, 0x42] [0x51, 0x45] = .ok [0x01, 0x07] [0x51, 0x45] := by decide +kernel

theorem witness_AsciiBlocksNeverFail :
    TableSorted swapTable ∧ (started .enc [0x7F] swapTable).fb.length = [0x00#21].length ∧ AllAscii [0x7F] ∧ AllAscii [0x00]
      ∧ AllAscii (swapTable.map Prod.fst) ∧ AllAscii (swapTable.map Prod.snd) := by
  refine ⟨by decide, rfl, ?_, ?_, ?_, ?_⟩ <;> intro c hc <;> revert hc <;> simp [swapTable] <;> rintro (rfl | rfl) <;> decide

/-- A run of the swap table, and the table of L1-3, whose value 'Y' is no key. -/
theorem witness_DecryptionUndoesEncryption :
    TableSorted swapTable ∧ PermutesItsKeys swapTable ∧ StateInv (loaded [0x4B] swapTable)
      ∧ (loaded [0x4B] swapTable).phase = .load ∧ (loaded [0x4B] swapTable).iv ≠ [] ∧ AllScalar [0x2A]
      ∧ (∃ t, execAll (.startEnc :: [0x2A].map .data ++ [.endRun]) (loaded [0x4B] swapTable) = .next t ∧ t.phase = .done)
      ∧ TableSorted [(0x58#21, 0x59#21)] ∧ Injective [(0x58, 0x59)] ∧ tableLookup [(0x58, 0x59)] 0x58 = some 0x59
      ∧ tableLookup [(0x58, 0x59)] 0x59 = none :=
  ⟨by decide, swap_permutes, loaded_invariant, rfl, by decide, List.all_eq_true.1 (by decide), ⟨_, rfl, rfl⟩, by decide,
    pair_injective _ _, by decide, by decide⟩

/-- A payload that needs padding and succeeds; B2's, which fails; and the empty payload. -/
theorem witness_EncryptionRunIsTheChain :
    StateInv (loaded [0x4B] swapTable) ∧ (loaded [0x4B] swapTable).phase = .load ∧ (loaded [0x4B] swapTable).iv ≠ []
      ∧ AllScalar [0x2A] ∧ AllScalar []
      ∧ encryptChain swapTable [0x4B] (segmentText (padText [0x2A] 1) 1) = some [0x7A]
      ∧ encryptChain swapTable [0x4B] (segmentText (padText [] 1) 1) = some []
      ∧ StateInv (loaded [0x0F0000] []) ∧ AllScalar [0x10FFFF]
      ∧ encryptChain [] [0x0F0000] (segmentText (padText [0x10FFFF] 1) 1) = none := by
  refine ⟨loaded_invariant, rfl, by decide, List.all_eq_true.1 (by decide), List.all_eq_true.1 (by decide), by decide +kernel,
    by decide +kernel, ?_, List.all_eq_true.1 (by decide), by decide +kernel⟩
  constructor <;> first | decide +kernel | exact List.all_eq_true.1 (by decide) | simp [loaded, State.reset, State.resetWith]

theorem witness_DecryptionRunIsTheChain :
    StateInv (loaded [0x4B] swapTable) ∧ (loaded [0x4B] swapTable).phase = .load ∧ (loaded [0x4B] swapTable).iv ≠ []
      ∧ Injective swapTable ∧ AllScalar [0x7A] ∧ decryptChain swapTable [0x4B] (segmentText (padText [0x7A] 1) 1) = some [0x2A]
      ∧ Injective [] ∧ decryptChain [] [0x0F0000] (segmentText (padText [0x10FFFF] 1) 1) = none :=
  ⟨loaded_invariant, rfl, by decide, swap_injective, List.all_eq_true.1 (by decide), by decide +kernel,
    fun _ _ _ h => (by cases h), by decide +kernel⟩

/-- A repeated key, and as many pairs and IV characters as fit in TMAX = 16 and LMAX = 8 would allow or fewer. -/
theorem witness_PseudoCommandsLoadThenRun :
    AllScalar ([(0x61#21, 0x78#21), (0x61, 0x79)].map Prod.fst) ∧ AllScalar ([(0x61#21, 0x78#21), (0x61, 0x79)].map Prod.snd)
      ∧ AllScalar (List.replicate 8 0x41) ∧ [(0x61#21, 0x78#21), (0x61, 0x79)].length ≤ State.reset.params.tmax
      ∧ (List.replicate 8 0x41#21).length ≤ State.reset.params.lmax :=
  ⟨List.all_eq_true.1 (by decide), List.all_eq_true.1 (by decide), List.all_eq_true.1 (by decide), by decide, by decide⟩

/-- Each phase, with a command that is not legal there. -/
theorem witness_OutOfPhaseCommandsRaiseSequence :
    (ld4.phase = .load ∧ ld4.phase ≠ .run) ∧ (rn4.phase = .run ∧ rn4.phase ≠ .load)
      ∧ (completed.phase = .done ∧ completed.phase ≠ .load ∧ completed.phase ≠ .run) := by decide

theorem witness_ErrorEntryIsPrecise :
    ∃ t, State.reset.phase ≠ .error ∧ execWord 0x4000000000000000 State.reset = .next t ∧ t.phase = .error :=
  ⟨_, by decide, rfl, rfl⟩

/-- Each command that can raise an error raises one. -/
theorem witness_CommandsRaiseOnlyTheirErrors :
    State.reset.phase ≠ .error ∧ rn4.phase ≠ .error
      ∧ after errorOf (exec (.keyline 1 true false 0x58 0) State.reset) = some (.error, 1, 6, 0)
      ∧ after errorOf (exec (.ivchar 0xD800) State.reset) = some (.error, 6, 0xD800, 0)
      ∧ after errorOf (exec .startEnc State.reset) = some (.error, 2, 0, 0)
      ∧ after errorOf (exec .startDec rn4) = some (.error, 8, 1, 0)
      ∧ after errorOf (exec (.data 0xD800) rn4) = some (.error, 6, 0xD800, 0)
      ∧ after errorOf (exec .dataerr rn4) = some (.error, 3, 0, 0)
      ∧ after errorOf (exec .endRun State.reset) = some (.error, 8, 0, 0) := by
  refine ⟨?_, ?_, ?_, ?_, ?_, ?_, ?_, ?_, ?_⟩ <;> decide +kernel

theorem witness_ErrorPhaseIgnoresAllButClear :
    failed.phase = .error ∧ (0x1000000000000001#64) ≠ 0x1000000000000000#64 ∧ Instr.nop ≠ .clear
      ∧ { failed with host := [.resetSignal] }.port = none ∧ { failed with host := [.resetSignal] }.host = [.resetSignal] := by
  decide

/-- A pop that keeps the record, and a CLEAR. -/
theorem witness_ErrorRecordKeptUntilClear :
    (∃ t, failed.phase = .error ∧ step { failed with host := [.pop] } = .next t ∧ t.phase = .error)
      ∧ ∃ t, step { failed with port := some 0x1000000000000000 } = .next t ∧ t.phase = .load :=
  ⟨⟨_, rfl, rfl, rfl⟩, ⟨_, rfl, rfl⟩⟩

theorem witness_CommandsLeavePortsAndParameters :
    (∃ t, exec (.data 0x48) rn4 = .next t) ∧ Instr.data 0x48 ≠ .clear ∧ Instr.data 0x48 ≠ .startEnc
      ∧ Instr.data 0x48 ≠ .startDec := ⟨⟨_, rfl⟩, by decide⟩

theorem witness_LoadingFrame :
    (∃ t, exec (.keyline 2 true true 0x58 0x59) State.reset = .next t ∧ t.phase ≠ .error)
      ∧ ∃ t, exec (.ivchar 0x41) State.reset = .next t ∧ t.phase ≠ .error :=
  ⟨⟨_, rfl, by decide⟩, ⟨_, rfl, by decide⟩⟩

theorem witness_StartFrame :
    (∃ t, exec .startEnc ld4 = .next t ∧ t.phase ≠ .error) ∧ (∃ t, exec .startDec ld4 = .next t ∧ t.phase ≠ .error)
      ∧ ∃ t, exec .startEnc State.reset = .next t ∧ t.phase = .error :=
  ⟨⟨_, rfl, by decide⟩, ⟨_, rfl, by decide⟩, ⟨_, rfl, rfl⟩⟩

theorem witness_PayloadFrame :
    (∃ t, exec (.data 0x48) rn4 = .next t ∧ t.phase ≠ .error ∧ t.nblk = rn4.nblk) ∧ (∃ t, exec .dataerr rn4 = .next t)
      ∧ ∃ t, exec .endRun rn4 = .next t ∧ t.phase ≠ .error :=
  ⟨⟨_, rfl, by decide, rfl⟩, ⟨_, rfl⟩, ⟨_, rfl, by decide⟩⟩

/-- A word that decodes, and one that does not, in LOAD and in ERROR. -/
theorem witness_StepExecutesThePresentedWord :
    isHeld 0x3000000000000041 { State.reset with port := some 0x3000000000000041 } = false
      ∧ decode 0x3000000000000041 = .ok (.ivchar 0x41)
      ∧ isHeld 0x8000000000000000 { State.reset with port := some 0x8000000000000000 } = false
      ∧ decode 0x8000000000000000 = .error .reservedOpcode ∧ State.reset.phase ≠ .error
      ∧ isHeld 0x8000000000000000 { failed with port := some 0x8000000000000000 } = false ∧ failed.phase = .error := by
  decide +kernel

theorem witness_HostWritePresentsTheWord :
    { State.reset with host := [.write 0] }.port = none ∧ { State.reset with host := [.write 0] }.host = [.write 0]
      ∧ State.reset.port = none ∧ State.reset.host = [] := by decide

/-- The first and the last reserved index. -/
theorem witness_RegisterMapFollowsItsRule : 0x0C#8 ≤ 0x0C#8 ∧ 0x0C#8 ≤ 0xFF#8 := by decide

/-- With nothing at the command port, and while a word is held. -/
theorem witness_RegisterReadsAreServedWithoutEffect :
    { State.reset with host := [.read 0x00] }.port = none ∧ (holding [.read 0x0B]).port = some 0x5000000000000052
      ∧ isHeld 0x5000000000000052 (holding [.read 0x0B]) = true ∧ 0x00#8 ≠ 0x0B#8 := by decide +kernel

/-- Two states that differ in the characters of IV, FWD, BUF, FB and OQ. -/
theorem witness_RegistersHideTheCipherState :
    let s := { started .enc [0x41, 0x42] [(0x61, 0x7A)] with buf := [0x48], oq := [0x01], nin := 1 }
    let s' := { started .enc [0x43, 0x44] [(0x62, 0x7B)] with buf := [0x49], oq := [0x02], nin := 1 }
    s ≠ s' ∧ s.phase = s'.phase ∧ s.mode = s'.mode ∧ s.runOk = s'.runOk ∧ s.iv.length = s'.iv.length
      ∧ s.fwd.length = s'.fwd.length ∧ s.buf.length = s'.buf.length ∧ s.oq.length = s'.oq.length ∧ s.nin = s'.nin
      ∧ s.nblk = s'.nblk ∧ s.nout = s'.nout ∧ s.npad = s'.npad ∧ s.err = s'.err ∧ s.errcmd = s'.errcmd
      ∧ s.errval = s'.errval ∧ s.errpos = s'.errpos ∧ s.params = s'.params := by decide +kernel

/-- A pop of an empty queue, and a pop while a word is held. -/
theorem witness_PopAnswersTheHeadOfTheQueue :
    { State.reset with host := [.pop] }.port = none ∧ { State.reset with host := [.pop] }.oq = []
      ∧ (holding [.pop]).host = [.pop] ∧ isHeld 0x5000000000000052 (holding [.pop]) = true
      ∧ (holding [.pop]).oq = [0x09, 0x07, 0x0F, 0x08] := by decide +kernel

/-- A held word with each kind of host that waits, and a legal unit with an empty queue. -/
theorem witness_HoldFollowsItsRule :
    isHeld 0x5000000000000052 (holding [.write 0]) = true ∧ (holding []).host = [] ∧ isHeld 0x5000000000000052 (holding []) = true
      ∧ (∃ t, step (holding [.read 0x0B]) = .next t) ∧ fullQueue.params.WF
      ∧ fullQueue.iv.length ≤ fullQueue.params.lmax ∧ { fullQueue with oq := [] }.oq = [] :=
  ⟨by decide +kernel, rfl, by decide +kernel, ⟨_, rfl⟩, by decide, by decide, rfl⟩

theorem witness_ResetSignalGivesResetState :
    (holding [.resetSignal]).host = [.resetSignal] ∧ isHeld 0x5000000000000052 (holding [.resetSignal]) = true
      ∧ ∃ t, step (holding [.read 0]) = .next t := ⟨rfl, by decide +kernel, ⟨_, rfl⟩⟩

theorem witness_PopsFreeAHeldCommand :
    StateInv (holding [.pop, .pop, .pop, .pop]) ∧ isHeld 0x5000000000000052 (holding [.pop, .pop, .pop, .pop]) = true
      ∧ (holding [.pop, .pop, .pop, .pop]).host = List.replicate 4 .pop ++ [] := ⟨holding_invariant _, by decide +kernel, rfl⟩

theorem witness_HostThatDoesNotPopHangs :
    (holding [.write 0]).port = some 0x5000000000000052 ∧ isHeld 0x5000000000000052 (holding [.write 0]) = true
      ∧ (holding [.write 0]).host = [.write 0] := by decide +kernel

/-- A DATA that pushes a block onto a queue that is not empty. -/
theorem witness_PopsCommuteWithCommands :
    ∃ t, fullQueue.phase = .run ∧ fullQueue.oq ≠ [] ∧ Instr.data 0x52 ≠ .clear ∧ exec (.data 0x52) fullQueue = .next t :=
  ⟨_, rfl, by decide, by decide, rfl⟩

/-- A completed run popped once; a run in progress that an error, or CLEAR, ends. -/
theorem witness_CompletedRunOutputHasNoutCharacters :
    StateInv completed ∧ runOutput completed = some [0xE9, 0x30]
      ∧ { completed with host := [.pop] }.port = none ∧ (∃ t, step { completed with host := [.pop] } = .next t)
      ∧ StateInv (rn4With [0x48, 0x45]) ∧ (rn4With [0x48, 0x45]).phase = .run
      ∧ (∃ t, execWord 0x6000000000000000 (rn4With [0x48, 0x45]) = .next t ∧ t.phase = .error)
      ∧ ∃ t, execWord 0x1000000000000000 (rn4With [0x48, 0x45]) = .next t ∧ t.phase = .load :=
  ⟨completed_invariant, rfl, rfl, ⟨_, rfl⟩, running_invariant, rfl, ⟨_, rfl, rfl⟩, ⟨_, rfl, rfl⟩⟩

theorem witness_FeedbackUnobservableBeforeStart : ld4.phase = .load := rfl

theorem witness_ResetStateFollowsItsRule : 0x00#8 ≠ 0x0A#8 ∧ 0x0B#8 ≠ 0x0A#8 := by decide

theorem witness_ResetStateMeetsInvariant : Params.WF { lmax := 1, tmax := 0, oqDepth := some 1 } := by decide

/-- A step of the unit in a run, and a step of the host while a word is held. -/
theorem witness_EveryStepKeepsInvariant :
    (∃ t, StateInv (holding [.pop]) ∧ step (holding [.pop]) = .next t) ∧ ∃ t, StateInv (rn4With [0x48, 0x45])
      ∧ step (rn4With [0x48, 0x45]) = .next t :=
  ⟨⟨_, holding_invariant _, rfl⟩, ⟨_, running_invariant, rfl⟩⟩

theorem witness_InvariantStatesNeverStop : StateInv (rn4With [0x48, 0x45]) := running_invariant

theorem witness_PhaseTransitionsAreTheListed :
    ∃ t, step { ld4 with port := some 0x4100000000000000 } = .next t ∧ t.phase = .run := ⟨_, rfl, rfl⟩

/-- A pop after a run, and the CLEAR that empties IV. -/
theorem witness_TableAndIvFixedOutsideLoad :
    completed.phase ≠ .load ∧ (∃ t, step { completed with host := [.pop] } = .next t)
      ∧ ∃ t, step { completed with port := some 0x1000000000000000 } = .next t ∧ t.iv = [] :=
  ⟨by decide, ⟨_, rfl⟩, ⟨_, rfl, rfl⟩⟩

/-- START.DEC, and the CLEAR of a decryption. -/
theorem witness_ModeWrittenOnlyByStart :
    (∃ t, step { ld4 with port := some 0x4100000000000000 } = .next t ∧ t.mode ≠ ld4.mode)
      ∧ ∃ t, step { started .dec [0x41] [] with port := some 0x1000000000000000 } = .next t ∧ t.mode ≠ .dec :=
  ⟨⟨_, rfl, by decide⟩, ⟨_, rfl, by decide⟩⟩

/-- END of a run, and the CLEAR after it. -/
theorem witness_RunOkSetOnlyByEnd :
    (∃ t, step { rn4 with port := some 0x7000000000000000 } = .next t ∧ rn4.runOk = false ∧ t.runOk = true ∧ t.phase = .done)
      ∧ ∃ t, step { completed with port := some 0x1000000000000000 } = .next t ∧ completed.runOk = true ∧ t.runOk = false :=
  ⟨⟨_, rfl, rfl, rfl, rfl⟩, ⟨_, rfl, rfl, rfl⟩⟩

end Sys2Proof.Tests
end

section
/-!
PROOFS. A word that decodes is the encoding of its command (30_encoding.md section 3): the fields of a word make up the
word, and the decoder's must-be-zero checks fix the fields the encoding leaves zero.
-/

namespace Sys2Proof

/-- The five fields of 30_encoding.md R80 are the whole word. -/
theorem fields_append (w : Command) : opField w ++ subField w ++ rsvdField w ++ charB w ++ charA w = w := by
  unfold opField subField rsvdField charB charA
  rw [BitVec.extractLsb'_append_extractLsb'_eq_extractLsb' (start₁ := 56) (len₁ := 4) rfl,
    BitVec.extractLsb'_append_extractLsb'_eq_extractLsb' (start₁ := 42) (len₁ := 14) rfl,
    BitVec.extractLsb'_append_extractLsb'_eq_extractLsb' (start₁ := 21) (len₁ := 21) rfl,
    BitVec.extractLsb'_append_extractLsb'_eq_extractLsb' (start₁ := 0) (len₁ := 21) rfl]
  exact BitVec.extractLsb'_eq_self

/-- A word is assembled from its fields where RSVD is zero. -/
theorem commandWord_of_fields {w : Command} {op sub : BitVec 4} {b a : CodePoint} (hop : (opField w).toNat = op.toNat)
    (hsub : subField w = sub) (hrsvd : rsvdField w = 0) (hb : charB w = b) (ha : charA w = a) :
    commandWord op sub b a = w := by
  have hop : opField w = op := BitVec.eq_of_toNat_eq hop
  subst hop hsub hb ha
  unfold commandWord
  rw [show (0#14) = rsvdField w from hrsvd.symm]
  exact fields_append w

/-- The check of a command without operands leaves only its opcode. -/
theorem commandWord_of_plain {w : Command} {op : BitVec 4} (hop : (opField w).toNat = op.toNat)
    (hz : (subField w == 0 && rsvdField w == 0 && charB w == 0 && charA w == 0) = true) : commandWord op 0 0 0 = w := by
  simp only [Bool.and_eq_true, beq_iff_eq] at hz
  obtain ⟨⟨⟨hsub, hrsvd⟩, hb⟩, ha⟩ := hz
  exact commandWord_of_fields hop hsub hrsvd hb ha

/-- The check of a command with one character leaves its opcode and that character. -/
theorem commandWord_of_character {w : Command} {op : BitVec 4} (hop : (opField w).toNat = op.toNat)
    (hz : (subField w == 0 && rsvdField w == 0 && charB w == 0) = true) : commandWord op 0 0 (charA w) = w := by
  simp only [Bool.and_eq_true, beq_iff_eq] at hz
  obtain ⟨⟨hsub, hrsvd⟩, hb⟩ := hz
  exact commandWord_of_fields hop hsub hrsvd hb rfl

/-- NTOK, S0 and S1 make up SUB (30_encoding.md R85). -/
theorem keylineSub_fields (w : Command) : keylineSub (ntokField w) (w.getLsbD 57) (w.getLsbD 56) = subField w := by
  apply BitVec.eq_of_getLsbD_eq
  intro i hi
  rw [getLsbD_subField w i hi]
  simp only [keylineSub, ntokField, BitVec.getLsbD_append, BitVec.getLsbD_extractLsb']
  interval_cases i <;> simp

/-- SUB of a START word is its MODE bit (30_encoding.md R86). -/
theorem subField_of_start {w : Command} (h : w.extractLsb' 57 3 = 0) : subField w = if w.getLsbD 56 then 1 else 0 := by
  have hsub : subField w = w.extractLsb' 57 3 ++ w.extractLsb' 56 1 :=
    (BitVec.extractLsb'_append_extractLsb'_eq_extractLsb' (start₁ := 56) (len₁ := 1) rfl).symm
  have hbit : w.extractLsb' 56 1 = BitVec.ofBool (w.getLsbD 56) := by
    apply BitVec.eq_of_getLsbD_eq
    intro i hi
    interval_cases i
    simp
  rw [hsub, h, hbit]
  cases w.getLsbD 56 <;> rfl

/-- A word that decodes is the encoding of what it decodes to. -/
theorem encode_of_decode {w : Command} {i : Instr} (h : decode w = .ok i) : encode i = w := by
  unfold decode at h
  split at h
  case h_9 => cases h
  all_goals
    rename_i hop
    obtain ⟨hz, rfl⟩ := (ifZero_ok_iff _ _ _).1 h
  case h_1 | h_2 | h_7 | h_8 => exact commandWord_of_plain hop hz
  case h_3 => exact commandWord_of_fields hop (keylineSub_fields w).symm (by simpa using hz) rfl rfl
  case h_4 | h_6 => exact commandWord_of_character hop hz
  case h_5 =>
    simp only [Bool.and_eq_true, beq_iff_eq] at hz
    obtain ⟨⟨⟨hhigh, hrsvd⟩, hb⟩, ha⟩ := hz
    have hsub := subField_of_start hhigh
    cases hm : w.getLsbD 56 <;> rw [hm] at hsub <;> exact commandWord_of_fields hop hsub hrsvd hb ha

end Sys2Proof
end

section
/-!
PROOFS. The datapath's lookups (10_state.md R26, R27) and the register map (10_state.md section 4).
-/

namespace Sys2Proof.Machine

/-! ### Sub and Unsub -/

/-- Settles O16: INV is the law `tableInverse_eq_some_iff`, and Unsub of a value reads it off. -/
theorem subAndUnsubFollowTheirDefinitions : Obligations.SubAndUnsubFollowTheirDefinitions := by
  intro t hs
  refine ⟨fun c v h => ?_, fun c h => ?_, fun hi k c => tableInverse_eq_some_iff hs hi c k, fun hi k c h => ?_,
    fun c hno => ?_⟩
  · simp [substitute, h]
  · simp [substitute, h]
  · simp [unsubstitute, (tableInverse_eq_some_iff hs hi c k).2 h]
  · have hnone : tableInverse t c = none := by
      rw [Option.eq_none_iff_forall_ne_some]
      exact fun k hk => hno k ((tableLookup_eq_some_iff hs k c).2 (tableInverse_mem hk))
    simp [unsubstitute, hnone]

/-! ### The fields of STATUS (R34) -/

theorem statusWord_phase (s : State) : (statusWord s).extractLsb' 0 2 = phaseBits s.phase := by
  rw [statusWord, BitVec.extractLsb'_append_eq_of_add_le (by decide), BitVec.extractLsb'_eq_self]

theorem statusWord_mode (s : State) : (statusWord s).getLsbD 2 = (s.mode == .dec) := by
  simp only [statusWord, BitVec.getLsbD_append]
  cases s.mode <;> rfl

theorem statusWord_runOk (s : State) : (statusWord s).getLsbD 3 = s.runOk := by
  simp only [statusWord, BitVec.getLsbD_append]
  cases s.runOk <;> rfl

/-- Above its low four bits STATUS holds ERR between two zero fields. -/
theorem statusWord_extract_above (s : State) (n len : Nat) :
    (statusWord s).extractLsb' (n + 4) len = (0#48 ++ s.err ++ 0#4).extractLsb' n len := by
  unfold statusWord
  rw [BitVec.extractLsb'_append_eq_of_le (by omega), BitVec.extractLsb'_append_eq_of_le (by omega),
    BitVec.extractLsb'_append_eq_of_le (by omega)]
  rfl

theorem statusWord_low_zeros (s : State) : (statusWord s).extractLsb' 4 4 = 0#4 := by
  rw [statusWord_extract_above s 0, BitVec.extractLsb'_append_eq_of_add_le (by decide), BitVec.extractLsb'_eq_self]

theorem statusWord_err (s : State) : (statusWord s).extractLsb' 8 8 = s.err := by
  rw [statusWord_extract_above s 4, BitVec.extractLsb'_append_eq_of_le (by decide),
    BitVec.extractLsb'_append_eq_of_add_le (by decide)]
  exact BitVec.extractLsb'_eq_self

theorem statusWord_high_zeros (s : State) : (statusWord s).extractLsb' 16 48 = 0#48 := by
  rw [statusWord_extract_above s 12, BitVec.extractLsb'_append_eq_of_le (by decide),
    BitVec.extractLsb'_append_eq_of_le (by decide)]
  exact BitVec.extractLsb'_eq_self

/-! ### The other registers (R35) -/

theorem readRegister_errInfo (s : State) : readRegister s 0x09 = s.errpos ++ 0#11 ++ s.errval := rfl

theorem readRegister_cap (s : State) :
    readRegister s 0x0A = BitVec.ofNat 32 s.params.tmax ++ BitVec.ofNat 32 s.params.lmax := rfl

theorem readRegister_reserved (s : State) {n : BitVec 8} (h : 0x0C#8 ≤ n) : readRegister s n = 0 := by
  obtain ⟨k, hk⟩ : ∃ k, n.toNat = k + 12 := Nat.exists_eq_add_of_le' h
  simp only [readRegister, hk]

theorem errInfo_errval (s : State) : (readRegister s 0x09).extractLsb' 0 21 = s.errval := by
  rw [readRegister_errInfo, BitVec.extractLsb'_append_eq_of_add_le (by decide), BitVec.extractLsb'_eq_self]

theorem errInfo_zeros (s : State) : (readRegister s 0x09).extractLsb' 21 11 = 0#11 := by
  rw [readRegister_errInfo, BitVec.extractLsb'_append_eq_of_le (by decide),
    BitVec.extractLsb'_append_eq_of_add_le (by decide)]
  exact BitVec.extractLsb'_eq_self

theorem errInfo_errpos (s : State) : (readRegister s 0x09).extractLsb' 32 32 = s.errpos := by
  rw [readRegister_errInfo, BitVec.extractLsb'_append_eq_of_le (by decide),
    BitVec.extractLsb'_append_eq_of_le (by decide)]
  exact BitVec.extractLsb'_eq_self

theorem cap_lmax (s : State) : (readRegister s 0x0A).extractLsb' 0 32 = BitVec.ofNat 32 s.params.lmax := by
  rw [readRegister_cap, BitVec.extractLsb'_append_eq_of_add_le (by decide), BitVec.extractLsb'_eq_self]

theorem cap_tmax (s : State) : (readRegister s 0x0A).extractLsb' 32 32 = BitVec.ofNat 32 s.params.tmax := by
  rw [readRegister_cap, BitVec.extractLsb'_append_eq_of_le (by decide)]
  exact BitVec.extractLsb'_eq_self

/-- Settles O37: STATUS field by field, the two composed registers field by field; the others are a field of the state. -/
theorem registerMapFollowsItsRule : Obligations.RegisterMapFollowsItsRule := by
  intro s
  have hphase : (readRegister s 0x00).extractLsb' 0 2
      = (match s.phase with | .load => 0#2 | .run => 1#2 | .done => 2#2 | .error => 3#2) :=
    (statusWord_phase s).trans (by cases s.phase <;> rfl)
  exact ⟨hphase, statusWord_mode s, statusWord_runOk s, statusWord_low_zeros s, statusWord_err s,
    statusWord_high_zeros s, rfl, rfl, rfl, rfl, rfl, rfl, rfl, rfl, errInfo_errval s, errInfo_zeros s,
    errInfo_errpos s, cap_lmax s, cap_tmax s, rfl, fun _ => readRegister_reserved s, fun _ => rfl⟩

end Sys2Proof.Machine
end

section
/-!
PROOFS. What a step does to PHASE, MODE and RUN_OK, said once (`StepEffect`); the statements on the three registers
follow from its cases.
-/

namespace Sys2Proof.Machine

@[simp] theorem popPort_phase (s : State) : (popPort s).phase = s.phase := by unfold popPort; cases s.oq <;> rfl
@[simp] theorem popPort_mode (s : State) : (popPort s).mode = s.mode := by unfold popPort; cases s.oq <;> rfl
@[simp] theorem popPort_runOk (s : State) : (popPort s).runOk = s.runOk := by unfold popPort; cases s.oq <;> rfl

/-- Everything a step can do to PHASE, MODE and RUN_OK (10_state.md R22, R23, R32), with what the ports hold where one of
them changes. -/
inductive StepEffect (s t : State) : Prop
  | kept (hphase : t.phase = s.phase) (hmode : t.mode = s.mode) (hok : t.runOk = s.runOk)
  | started (hs : s.phase = .load) (ht : t.phase = .run) (hok : t.runOk = s.runOk)
      (hw : s.port = some 0x4000000000000000#64 ∧ t.mode = .enc ∨ s.port = some 0x4100000000000000#64 ∧ t.mode = .dec)
  | finished (hs : s.phase = .run) (ht : t.phase = .done) (hmode : t.mode = s.mode) (hok : t.runOk = true)
      (hw : s.port = some 0x7000000000000000#64)
  | raised (hs : s.phase ≠ .error) (ht : t.phase = .error) (hmode : t.mode = s.mode) (hok : t.runOk = s.runOk)
      (herr : t.err ≠ 0) (hw : s.port = some t.errcmd)
  | reset (ht : t.phase = .load) (hmode : t.mode = .enc) (hok : t.runOk = false)
      (hw : s.port = some 0x1000000000000000#64 ∨ ∃ rest, s.host = .resetSignal :: rest)

/-- The effect of a decoded command that the unit accepts, from what a command can do at all. -/
theorem exec_effect {s t : State} {w : Command} {i : Instr} (hport : s.port = some w) (hd : decode w = .ok i)
    (h : exec i { s with port := none, reply := .nothing } = .next t) : StepEffect s t := by
  have hport : s.port = some (encode i) := encode_of_decode hd ▸ hport
  cases exec_cases h with
  | ignored | nop | keyLine | ivChar | buffered | block => exact .kept rfl rfl rfl
  | clear => exact .reset rfl rfl rfl (.inl hport)
  | raised _ _ hp c => exact .raised hp rfl rfl rfl (errorNumber_ne_zero c) hport
  | startEnc _ hp => exact .started hp rfl rfl (.inl ⟨hport, rfl⟩)
  | startDec _ hp => exact .started hp rfl rfl (.inr ⟨hport, rfl⟩)
  | endEmpty _ hp | endPadded _ _ _ hp => exact .finished hp rfl rfl rfl hport

/-- The effect of a word that does not decode: nothing in phase ERROR, else ILLEGAL_COMMAND. -/
theorem illegalCommand_effect {s : State} {w : Command} (hport : s.port = some w) :
    StepEffect s (illegalCommand w { s with port := none, reply := .nothing }) := by
  unfold illegalCommand
  split_ifs with hp
  · exact .kept rfl rfl rfl
  · exact .raised hp rfl rfl rfl (errorNumber_ne_zero .illegalCommand) hport

/-- The effect of the host's action: only the reset signal reaches PHASE, MODE or RUN_OK. -/
theorem hostStep_effect (s : State) : StepEffect s (hostStep s) := by
  rcases hostStep_cases s with e | ⟨w, rest, -, -, e⟩ | ⟨n, rest, -, e⟩ | ⟨rest, -, e⟩ | ⟨rest, hh, e⟩ <;> rw [e]
  · exact .kept rfl rfl rfl
  · exact .kept rfl rfl rfl
  · exact .kept rfl rfl rfl
  · exact .kept (popPort_phase _) (popPort_mode _) (popPort_runOk _)
  · exact .reset rfl rfl rfl (.inr ⟨rest, hh⟩)

theorem step_effect {s t : State} (h : step s = .next t) : StepEffect s t := by
  rcases step_cases h with ⟨w, hport, -, hx⟩ | ⟨-, e⟩
  · rcases execWord_cases hx with ⟨i, hd, hi⟩ | ⟨_, -, e⟩
    · exact exec_effect hport hd hi
    · cases e; exact illegalCommand_effect hport
  · cases e; exact hostStep_effect s

/-- Settles O52: each effect is one of the transitions R22 lists, or none. -/
theorem phaseTransitionsAreTheListed : Obligations.PhaseTransitionsAreTheListed := by
  refine ⟨fun _ => rfl, fun s => (registerMapFollowsItsRule s).1, fun s t h => ?_⟩
  cases step_effect h with
  | kept hphase => exact .inl hphase
  | started hs ht _ hw => exact .inr (.inl ⟨hs, ht, hw.imp And.left And.left⟩)
  | finished hs ht _ _ hw => exact .inr (.inr (.inl ⟨hs, ht, hw⟩))
  | raised hs ht _ _ herr hw => exact .inr (.inr (.inr (.inl ⟨hs, ht, herr, hw⟩)))
  | reset ht _ _ hw => exact .inr (.inr (.inr (.inr ⟨ht, hw⟩)))

/-- Settles O54: the two effects that write MODE are START and the reset state. -/
theorem modeWrittenOnlyByStart : Obligations.ModeWrittenOnlyByStart := by
  refine ⟨fun _ => rfl, statusWord_mode, fun s t h hne => ?_⟩
  cases step_effect h with
  | kept _ hmode | finished _ _ hmode | raised _ _ hmode => exact absurd hmode hne
  | started hs ht _ hw => exact .inl ⟨hs, ht, hw⟩
  | reset _ hmode _ hw => exact .inr ⟨hmode, hw⟩

/-- Settles O55: the two effects that write RUN_OK are END from RUN to DONE and the reset state. -/
theorem runOkSetOnlyByEnd : Obligations.RunOkSetOnlyByEnd := by
  refine ⟨fun _ => rfl, fun s t h => ⟨fun hclear hset => ?_, fun hset hclear => ?_, fun hrun hdone => ?_⟩⟩
  · cases step_effect h with
    | finished hs ht _ _ hw => exact ⟨hs, ht, hw⟩
    | kept _ _ hok | started _ _ hok | raised _ _ _ hok => simp [hok, hclear] at hset
    | reset _ _ hok => simp [hok] at hset
  · cases step_effect h with
    | reset _ _ _ hw => exact hw
    | kept _ _ hok | started _ _ hok | raised _ _ _ hok => simp [hok, hset] at hclear
    | finished _ _ _ hok => simp [hok] at hclear
  · cases step_effect h with
    | finished _ _ _ hok => exact hok
    | kept hphase => simp [hphase, hrun] at hdone
    | started _ ht | raised _ ht | reset ht => simp [ht] at hdone

end Sys2Proof.Machine
end

section
/-!
PROOFS. R88's formula, the decoder and the rows of the opcode table agree (30_encoding.md section 3), and what an illegal
word does (30_encoding.md R89; 60_exceptions.md R206).
-/

namespace Sys2Proof

/-! ### Well-formed words and the decoder -/

/-- A field that lies inside a zero field is zero. -/
theorem extract_eq_zero_of_within {w : Command} {start len : Nat} (h : w.extractLsb' start len = 0) (start' len' : Nat)
    (hlo : start ≤ start') (hhi : start' + len' ≤ start + len) : w.extractLsb' start' len' = 0 := by
  apply BitVec.eq_of_getLsbD_eq
  intro i hi
  have hbit : (w.extractLsb' start len).getLsbD (start' - start + i) = false := by rw [h]; exact BitVec.getLsbD_zero
  rw [BitVec.getLsbD_extractLsb', ← Nat.add_assoc, Nat.add_sub_cancel' hlo] at hbit
  simpa [hi, show start' - start + i < len by omega] using hbit

/-- A word with R88's formula decodes: the formula's zero field contains every field the decoder checks. -/
theorem decode_ok_of_wellFormed {w : Command} (h : WellFormedWord w) : ∃ i, decode w = .ok i := by
  rcases h with ⟨hop, hz⟩ | ⟨hop, hz⟩ | ⟨hop, hz⟩ | ⟨hop, hhigh, hz⟩
  · have hsub : subField w = 0 := extract_eq_zero_of_within hz 56 4 (by decide) (by decide)
    have hrsvd : rsvdField w = 0 := extract_eq_zero_of_within hz 42 14 (by decide) (by decide)
    have hb : charB w = 0 := extract_eq_zero_of_within hz 21 21 (by decide) (by decide)
    have ha : charA w = 0 := extract_eq_zero_of_within hz 0 21 (by decide) (by decide)
    rcases hop with hop | hop | hop | hop <;> simp [decode, opField, hop, hsub, hrsvd, hb, ha, ifZero]
  · have hrsvd : rsvdField w = 0 := hz
    simp [decode, opField, hop, hrsvd, ifZero]
  · have hsub : subField w = 0 := extract_eq_zero_of_within hz 56 4 (by decide) (by decide)
    have hrsvd : rsvdField w = 0 := extract_eq_zero_of_within hz 42 14 (by decide) (by decide)
    have hb : charB w = 0 := extract_eq_zero_of_within hz 21 21 (by decide) (by decide)
    rcases hop with hop | hop <;> simp [decode, opField, hop, hsub, hrsvd, hb, ifZero]
  · have hrsvd : rsvdField w = 0 := extract_eq_zero_of_within hz 42 14 (by decide) (by decide)
    have hb : charB w = 0 := extract_eq_zero_of_within hz 21 21 (by decide) (by decide)
    have ha : charA w = 0 := extract_eq_zero_of_within hz 0 21 (by decide) (by decide)
    simp [decode, opField, hop, hhigh, hrsvd, hb, ha, ifZero]

theorem encode_wellFormed (i : Instr) : WellFormedWord (encode i) := by
  cases i with
  | nop => exact Laws.EncodeWellFormed.nop
  | clear => exact Laws.EncodeWellFormed.clear
  | keyline ntok s0 s1 a b => exact Laws.EncodeWellFormed.keyline ntok s0 s1 a b
  | ivchar a => exact Laws.EncodeWellFormed.ivchar a
  | startEnc => exact Laws.EncodeWellFormed.startEnc
  | startDec => exact Laws.EncodeWellFormed.startDec
  | data a => exact Laws.EncodeWellFormed.data a
  | dataerr => exact Laws.EncodeWellFormed.dataerr
  | endRun => exact Laws.EncodeWellFormed.endRun

theorem wellFormed_iff_decode_ok (w : Command) : WellFormedWord w ↔ ∃ i, decode w = .ok i := by
  refine ⟨decode_ok_of_wellFormed, fun ⟨i, hd⟩ => ?_⟩
  rw [← encode_of_decode hd]
  exact encode_wellFormed i

theorem decode_error_of_not_wellFormed {w : Command} (h : ¬ WellFormedWord w) : ∃ e, decode w = .error e := by
  cases hd : decode w with
  | ok i => exact absurd ((wellFormed_iff_decode_ok w).2 ⟨i, hd⟩) h
  | error e => exact ⟨e, rfl⟩

/-- Opcodes 0x8 to 0xF are reserved: every disjunct of R88 names a smaller opcode. -/
theorem not_wellFormed_of_reserved {w : Command} (h : 0x8#4 ≤ w.extractLsb' 60 4) : ¬ WellFormedWord w := by
  rintro (⟨hop | hop | hop | hop, -⟩ | ⟨hop, -⟩ | ⟨hop | hop, -⟩ | ⟨hop, -⟩) <;>
    exact absurd (hop ▸ h) (by decide)

/-! ### The rows of the opcode table -/

theorem bitVec_append_eq_append_iff {m n : Nat} {x a : BitVec m} {y b : BitVec n} : x ++ y = a ++ b ↔ x = a ∧ y = b := by
  refine ⟨fun h => ⟨?_, ?_⟩, fun ⟨hx, hy⟩ => hx ▸ hy ▸ rfl⟩
  · simpa only [BitVec.extractLsb'_append_eq_left] using congrArg (BitVec.extractLsb' n m) h
  · simpa only [BitVec.extractLsb'_append_eq_right] using congrArg (BitVec.extractLsb' 0 n) h

/-- A mask of the upper and one of the lower field of a word select from the two fields separately. -/
theorem bitVec_append_and_eq_append_iff {m n : Nat} {x a c : BitVec m} {y b d : BitVec n} :
    (x ++ y) &&& (a ++ b) = c ++ d ↔ x &&& a = c ∧ y &&& b = d := by
  rw [BitVec.and_append, bitVec_append_eq_append_iff]

theorem opField_append_rest (w : Command) : opField w ++ w.extractLsb' 0 60 = w :=
  (BitVec.extractLsb'_append_extractLsb'_eq_extractLsb' (start₁ := 0) (len₁ := 60) rfl).trans BitVec.extractLsb'_eq_self

/-- A row without operands: the mask takes the whole word. -/
theorem plainRow_iff (w v : Command) {op : BitVec 4} (hv : v = op ++ 0#60) :
    w &&& 0xFFFFFFFFFFFFFFFF#64 = v ↔ w.extractLsb' 60 4 = op ∧ w.extractLsb' 0 60 = 0#60 := by
  conv_lhs => rw [hv, ← opField_append_rest w, show 0xFFFFFFFFFFFFFFFF#64 = BitVec.allOnes 64 from rfl]
  rw [BitVec.and_allOnes, bitVec_append_eq_append_iff, opField]

/-- The row of KEYLINE: the mask takes OP and RSVD. -/
theorem keylineRow_iff (w : Command) :
    w &&& 0xF0FFFC0000000000#64 = 0x2000000000000000#64
      ↔ w.extractLsb' 60 4 = 0x2#4 ∧ w.extractLsb' 42 14 = 0#14 := by
  conv_lhs =>
    rw [← fields_append w,
      show 0xF0FFFC0000000000#64 = BitVec.allOnes 4 ++ 0#4 ++ BitVec.allOnes 14 ++ 0#21 ++ 0#21 from rfl,
      show 0x2000000000000000#64 = 0x2#4 ++ 0#4 ++ 0#14 ++ 0#21 ++ 0#21 from rfl]
  rw [bitVec_append_and_eq_append_iff, bitVec_append_and_eq_append_iff, bitVec_append_and_eq_append_iff,
    bitVec_append_and_eq_append_iff]
  simp only [BitVec.and_allOnes, BitVec.and_zero, and_true, opField, rsvdField]

/-- The rows of the commands with one character: the mask takes all but A. -/
theorem characterRow_iff (w v : Command) {op : BitVec 4} (hv : v = op ++ 0#39 ++ 0#21) :
    w &&& 0xFFFFFFFFFFE00000#64 = v ↔ w.extractLsb' 60 4 = op ∧ w.extractLsb' 21 39 = 0#39 := by
  have hw : opField w ++ w.extractLsb' 21 39 ++ charA w = w := by
    rw [opField, charA, BitVec.extractLsb'_append_extractLsb'_eq_extractLsb' (start₁ := 21) (len₁ := 39) rfl,
      BitVec.extractLsb'_append_extractLsb'_eq_extractLsb' (start₁ := 0) (len₁ := 21) rfl]
    exact BitVec.extractLsb'_eq_self
  conv_lhs => rw [hv, ← hw, show 0xFFFFFFFFFFE00000#64 = BitVec.allOnes 4 ++ BitVec.allOnes 39 ++ 0#21 from rfl]
  rw [bitVec_append_and_eq_append_iff, bitVec_append_and_eq_append_iff]
  simp only [BitVec.and_allOnes, BitVec.and_zero, and_true, opField]

/-- A row of START: the mask takes the whole word, MODE included. -/
theorem startRow_iff (w v : Command) {mode : BitVec 1} (hv : v = 0x4#4 ++ 0#3 ++ mode ++ 0#56) :
    w &&& 0xFFFFFFFFFFFFFFFF#64 = v ↔ ((w.extractLsb' 60 4 = 0x4#4 ∧ w.extractLsb' 57 3 = 0#3)
      ∧ w.extractLsb' 56 1 = mode) ∧ w.extractLsb' 0 56 = 0#56 := by
  have hw : opField w ++ w.extractLsb' 57 3 ++ w.extractLsb' 56 1 ++ w.extractLsb' 0 56 = w := by
    rw [opField, BitVec.extractLsb'_append_extractLsb'_eq_extractLsb' (start₁ := 57) (len₁ := 3) rfl,
      BitVec.extractLsb'_append_extractLsb'_eq_extractLsb' (start₁ := 56) (len₁ := 1) rfl,
      BitVec.extractLsb'_append_extractLsb'_eq_extractLsb' (start₁ := 0) (len₁ := 56) rfl]
    exact BitVec.extractLsb'_eq_self
  conv_lhs => rw [hv, ← hw, show 0xFFFFFFFFFFFFFFFF#64 = BitVec.allOnes 64 from rfl]
  rw [BitVec.and_allOnes, bitVec_append_eq_append_iff, bitVec_append_eq_append_iff, bitVec_append_eq_append_iff, opField]

/-- The two rows of START differ in the MODE bit, which R88 does not fix. -/
theorem startRows_iff (w : Command) :
    (w &&& 0xFFFFFFFFFFFFFFFF#64 = 0x4000000000000000#64 ∨ w &&& 0xFFFFFFFFFFFFFFFF#64 = 0x4100000000000000#64)
      ↔ w.extractLsb' 60 4 = 0x4#4 ∧ w.extractLsb' 57 3 = 0#3 ∧ w.extractLsb' 0 56 = 0#56 := by
  rw [startRow_iff w 0x4000000000000000#64 (mode := 0#1) rfl, startRow_iff w 0x4100000000000000#64 (mode := 1#1) rfl,
    ← or_and_right, ← and_or_left, and_iff_left (BitVec.eq_zero_or_eq_one _), and_assoc]

/-- R88's formula groups the rows of the opcode table by the shape of their masks. -/
theorem wellFormed_iff_matches_row (w : Command) : WellFormedWord w ↔ ∃ r ∈ opcodeTable, w &&& r.1 = r.2 := by
  simp only [opcodeTable, List.exists_mem_cons_iff, List.not_mem_nil, false_and, exists_false, or_false]
  rw [← or_assoc (a := _ = 0x4000000000000000#64), startRows_iff, keylineRow_iff,
    plainRow_iff w 0x0000000000000000#64 (op := 0x0#4) rfl, plainRow_iff w 0x1000000000000000#64 (op := 0x1#4) rfl,
    characterRow_iff w 0x3000000000000000#64 (op := 0x3#4) rfl, characterRow_iff w 0x5000000000000000#64 (op := 0x5#4) rfl,
    plainRow_iff w 0x6000000000000000#64 (op := 0x6#4) rfl, plainRow_iff w 0x7000000000000000#64 (op := 0x7#4) rfl]
  simp only [WellFormedWord, or_and_right]
  exact iff_of_eq (by ac_rfl)

/-- Two rows that agree where both masks look are the same row. -/
theorem opcodeTable_rows_conflict :
    ∀ r ∈ opcodeTable, ∀ r' ∈ opcodeTable, r.2 &&& r'.1 = r'.2 &&& r.1 → r = r' := by
  simp [opcodeTable]

theorem row_unique {w : Command} {r r' : Command × Command} (hr : r ∈ opcodeTable) (hr' : r' ∈ opcodeTable)
    (h : w &&& r.1 = r.2) (h' : w &&& r'.1 = r'.2) : r = r' := by
  apply opcodeTable_rows_conflict r hr r' hr'
  rw [← h, ← h', BitVec.and_assoc, BitVec.and_assoc, BitVec.and_comm r.1]

/-- Settles O3: R88's formula is tied to the decoder and to the rows, and two rows never agree on a word. -/
theorem decodeAcceptsExactlyWellFormedWords : Obligations.DecodeAcceptsExactlyWellFormedWords := fun w =>
  ⟨wellFormed_iff_decode_ok w, wellFormed_iff_matches_row w, fun _ hr _ hr' => row_unique hr hr'⟩

end Sys2Proof

namespace Sys2Proof.Machine

/-! ### Illegal words and the zero word -/

theorem execWord_of_not_wellFormed {w : Command} (h : ¬ WellFormedWord w) (s : State) :
    execWord w s = .next (illegalCommand w s) := by
  obtain ⟨e, hd⟩ := decode_error_of_not_wellFormed h
  unfold execWord
  rw [hd]

theorem illegalCommand_of_error (w : Command) {s : State} (h : s.phase = .error) : illegalCommand w s = s := if_pos h

theorem illegalCommand_of_not_error (w : Command) {s : State} (h : s.phase ≠ .error) :
    illegalCommand w s = errorAt s 7 w 0 0 := if_neg h

/-- In phase DONE every command but NOP leaves the phase: CLEAR for LOAD, the others for ERROR. -/
theorem eq_nop_of_exec_stays_done {i : Instr} {s t : State} (h : exec i s = .next t) (hs : s.phase = .done)
    (ht : t.phase = .done) : i = .nop := by
  cases exec_cases h with
  | nop => rfl
  | clear | raised => cases ht
  | ignored _ _ hp | keyLine _ _ _ hp | ivChar _ _ hp | startEnc _ hp | startDec _ hp | buffered _ _ hp
  | block _ _ _ _ hp | endEmpty _ hp | endPadded _ _ _ hp => rw [hs] at hp; cases hp

/-- The zero word is NOP's, and phase DONE tells every other word from it. -/
theorem eq_zero_of_execWord_stays_done {w : Command} {s t : State} (h : execWord w s = .next t) (hs : s.phase = .done)
    (ht : t.phase = .done) : w = 0 := by
  rcases execWord_cases h with ⟨i, hd, hx⟩ | ⟨e, -, he⟩
  · rw [eq_nop_of_exec_stays_done hx hs ht] at hd
    exact (encode_of_decode hd).symm
  · cases he
    rw [illegalCommand_of_not_error w (by simp [hs])] at ht
    cases ht

/-- Settles O4: the two sides of `illegalCommand`, the reserved opcodes, and phase DONE as the state in which every other
word than the zero word has an effect. -/
theorem illegalWordsRaiseIllegalCommand : Obligations.IllegalWordsRaiseIllegalCommand := by
  refine ⟨fun w s hw => ?_, fun _ => not_wellFormed_of_reserved, fun w => ⟨fun hnone => ?_, ?_⟩⟩
  · rw [execWord_of_not_wellFormed hw]
    exact ⟨fun hp => congrArg _ (illegalCommand_of_not_error w hp), fun hp => congrArg _ (illegalCommand_of_error w hp)⟩
  · exact eq_zero_of_execWord_stays_done (hnone { State.reset with phase := .done }) rfl rfl
  · rintro rfl s
    exact execWord_of_decode (i := .nop) rfl s

end Sys2Proof.Machine
end

section
/-!
PROOFS. KEYLINE and IVCHAR in phase LOAD (40_table_and_iv.md R110, R111, R114): the words of the two commands, what each
check of their rules answers, and what an accepted KEYLINE does to the table.
-/

namespace Sys2Proof

/-! ### The words of the two commands -/

/-- SUB behind another field, written out as NTOK, S0 and S1 (30_encoding.md R85). -/
theorem append_keylineSub {n : Nat} (x : BitVec n) (ntok : BitVec 2) (s0 s1 : Bool) :
    x ++ keylineSub ntok s0 s1 = x ++ ntok ++ BitVec.ofBool s0 ++ BitVec.ofBool s1 :=
  BitVec.append_assoc'.trans (congrArg (· ++ BitVec.ofBool s1) BitVec.append_assoc')

theorem encode_keyline_fields (ntok : BitVec 2) (s0 s1 : Bool) (a b : CodePoint) :
    encode (.keyline ntok s0 s1 a b)
      = 0x2#4 ++ ntok ++ BitVec.ofBool s0 ++ BitVec.ofBool s1 ++ 0#14 ++ b ++ a :=
  congrArg (fun high : BitVec 8 => high ++ 0#14 ++ b ++ a) (append_keylineSub 0x2#4 ntok s0 s1)

/-- SUB as ERRVAL holds it. -/
theorem setWidth_keylineSub (ntok : BitVec 2) (s0 s1 : Bool) :
    (keylineSub ntok s0 s1).setWidth 21 = 0#17 ++ ntok ++ BitVec.ofBool s0 ++ BitVec.ofBool s1 :=
  (BitVec.setWidth_eq_append (by decide)).trans (append_keylineSub 0#17 ntok s0 s1)

theorem keylineSub_eq_iff {ntok ntok' : BitVec 2} {s0 s0' s1 s1' : Bool} :
    keylineSub ntok s0 s1 = keylineSub ntok' s0' s1' ↔ ntok = ntok' ∧ s0 = s0' ∧ s1 = s1' := by
  have hlast : keylineSub ntok s0 s1 = keylineSub ntok' s0' s1'
      ↔ ntok ++ BitVec.ofBool s0 = ntok' ++ BitVec.ofBool s0' ∧ BitVec.ofBool s1 = BitVec.ofBool s1' :=
    bitVec_append_eq_append_iff
  rw [hlast, bitVec_append_eq_append_iff, BitVec.ofBool_eq_iff_eq, BitVec.ofBool_eq_iff_eq, and_assoc]

/-- KEYLINE's row of the opcode map: RSVD is the only field checked, and the others are its operands. -/
theorem decode_of_keyline_opcode {w : Command} (hop : opField w = 0x2) (hrsvd : rsvdField w = 0) :
    decode w = .ok (.keyline (ntokField w) (w.getLsbD 57) (w.getLsbD 56) (charA w) (charB w)) := by
  simp [decode, hop, hrsvd, ifZero]

theorem decode_encode_keyline (ntok : BitVec 2) (s0 s1 : Bool) (a b : CodePoint) :
    decode (encode (.keyline ntok s0 s1 a b)) = .ok (.keyline ntok s0 s1 a b) := by
  have hsub := keylineSub_fields (encode (.keyline ntok s0 s1 a b))
  rw [encode, subField_commandWord, keylineSub_eq_iff] at hsub
  obtain ⟨hntok, hs0, hs1⟩ := hsub
  rw [encode, decode_of_keyline_opcode (opField_commandWord _ _ _ _) (rsvdField_commandWord _ _ _ _), hntok, hs0, hs1,
    charA_commandWord, charB_commandWord]

theorem decode_encode_ivchar (a : CodePoint) : decode (encode (.ivchar a)) = .ok (.ivchar a) := by
  simp [decode, encode, ifZero, opField_commandWord, subField_commandWord, rsvdField_commandWord, charB_commandWord,
    charA_commandWord]

end Sys2Proof

namespace Sys2Proof.Machine

/-! ### KEYLINE, check by check -/

theorem exec_keyline_of_load (ntok : BitVec 2) (s0 s1 : Bool) (a b : CodePoint) {s : State} (hp : s.phase = .load) :
    exec (.keyline ntok s0 s1 a b) s = loadKeyLine (encode (.keyline ntok s0 s1 a b)) ntok s0 s1 a b s :=
  inPhase_of_phase hp (by decide)

theorem exec_keyline_malformed {ntok : BitVec 2} {s0 s1 : Bool} (h : ¬ keyLineOk ntok s0 s1) (a b : CodePoint)
    {s : State} (hp : s.phase = .load) :
    exec (.keyline ntok s0 s1 a b) s
      = .next (errorAt s 1 (encode (.keyline ntok s0 s1 a b)) ((keylineSub ntok s0 s1).setWidth 21) 0) := by
  rw [exec_keyline_of_load _ _ _ _ _ hp]
  simp [loadKeyLine, h, raiseError_eq_errorAt, errorNumber]

/-- A line of two tokens of one character passes the first check of R110; these are the others. -/
theorem exec_keyline_two_tokens (a b : CodePoint) {s : State} (hp : s.phase = .load) :
    exec (.keyline 2 true true a b) s =
      if ¬ isScalar a then .next (errorAt s 6 (encode (.keyline 2 true true a b)) a 0)
      else if ¬ isScalar b then .next (errorAt s 6 (encode (.keyline 2 true true a b)) b 1)
      else if tableLookup s.fwd a = none ∧ s.fwd.length = s.params.tmax then
        .next (errorAt s 9 (encode (.keyline 2 true true a b)) a 0)
      else .next { s with fwd := tableInsert s.fwd a b } := by
  rw [exec_keyline_of_load _ _ _ _ _ hp]
  simp [loadKeyLine, keyLineOk, raiseError_eq_errorAt, errorNumber]

/-- An accepted KEYLINE changes FWD and nothing else. -/
theorem exec_keyline_accepted {a b : CodePoint} {s : State} (hp : s.phase = .load) (ha : isScalar a) (hb : isScalar b)
    (hroom : ¬ (tableLookup s.fwd a = none ∧ s.fwd.length = s.params.tmax)) :
    exec (.keyline 2 true true a b) s = .next { s with fwd := tableInsert s.fwd a b } := by
  rw [exec_keyline_two_tokens a b hp, if_neg (not_not_intro ha), if_neg (not_not_intro hb), if_neg hroom]

/-- Settles O8: the word by its fields, then one clause per check in the order of R110. -/
theorem keylineFollowsItsRule : Obligations.KeylineFollowsItsRule := by
  intro ntok s0 s1 a b s hp w whole full
  have hw : w = encode (.keyline ntok s0 s1 a b) := (encode_keyline_fields ntok s0 s1 a b).symm
  rw [hw]
  refine ⟨decode_encode_keyline ntok s0 s1 a b, fun hmal => ?malformed, ?keyNotScalar, ?valueNotScalar, ?tableFull,
    ?accepted⟩
  case malformed =>
    rw [exec_keyline_malformed (mt (keyLineOk_iff ntok s0 s1).1 hmal) a b hp, setWidth_keylineSub]
  case keyNotScalar =>
    rintro ⟨rfl, rfl, rfl⟩ ha
    rw [exec_keyline_two_tokens a b hp, if_pos ha]
  case valueNotScalar =>
    rintro ⟨rfl, rfl, rfl⟩ ha hb
    rw [exec_keyline_two_tokens a b hp, if_neg (not_not_intro ha), if_pos hb]
  case tableFull =>
    rintro ⟨rfl, rfl, rfl⟩ ha hb hfull
    rw [exec_keyline_two_tokens a b hp, if_neg (not_not_intro ha), if_neg (not_not_intro hb), if_pos hfull]
  case accepted =>
    rintro ⟨rfl, rfl, rfl⟩ ha hb hroom
    exact exec_keyline_accepted hp ha hb hroom

/-! ### The table after an accepted KEYLINE -/

/-- Settles O9: the laws of `tableInsert`, and R111's example as two accepted KEYLINEs, the second of a key already there. -/
theorem keylineMapsItsKeyAndKeepsOthers : Obligations.KeylineMapsItsKeyAndKeepsOthers := by
  refine ⟨fun a b s hp hs ha hb hroom => ?_, fun s hp hempty htmax => ?_⟩
  · have hacc := exec_keyline_accepted hp ha hb fun ⟨hnew, hlen⟩ => (hroom hnew).ne hlen
    exact ⟨_, hacc, tableLookup_insert s.fwd a b, tableInsert_length hs a b, tableInsert_sorted hs a b⟩
  · have hfirst := exec_keyline_accepted (a := 0x61) (b := 0x78) hp (by decide) (by decide)
      fun ⟨_, hlen⟩ => htmax.ne (by simpa [hempty] using hlen)
    rw [hempty] at hfirst
    have hsecond := exec_keyline_accepted (a := 0x61) (b := 0x79)
      (s := { s with fwd := tableInsert [] 0x61 0x78 }) hp (by decide) (by decide) fun ⟨hnew, _⟩ => nomatch hnew
    exact ⟨_, _, hfirst, hsecond, rfl, rfl⟩

/-! ### IVCHAR -/

theorem exec_ivchar_of_load (a : CodePoint) {s : State} (hp : s.phase = .load) :
    exec (.ivchar a) s =
      if ¬ isScalar a then .next (errorAt s 6 (encode (.ivchar a)) a (pos32 s.iv.length))
      else if s.iv.length = s.params.lmax then .next (errorAt s 10 (encode (.ivchar a)) a (pos32 s.iv.length))
      else .next { s with iv := s.iv ++ [a] } := by
  have hrule : exec (.ivchar a) s = loadIvChar (encode (.ivchar a)) a s := inPhase_of_phase hp (by decide)
  rw [hrule]
  simp [loadIvChar, raiseError_eq_errorAt, errorNumber]

/-- Settles O10: the clauses are the branches of R114's rule, the scalar check first. -/
theorem ivcharFollowsItsRule : Obligations.IvcharFollowsItsRule := by
  intro a s hp w
  rw [exec_ivchar_of_load a hp]
  refine ⟨decode_encode_ivchar a, fun ha => if_pos ha, fun ha hlen => ?_, fun ha hlen => ?_⟩
  · rw [if_neg (not_not_intro ha), if_pos hlen]
    rfl
  · rw [if_neg (not_not_intro ha), if_neg hlen]

end Sys2Proof.Machine
end

section
/-!
PROOFS. The payload commands in phase RUN (41_segmentation_padding.md R132, R135, R137): the rule of each command, and the
block that ProcessBlock is given when it meets ProcessBlock's conditions (42_chain_cipher.md R162).
-/

namespace Sys2Proof

theorem decode_encode_data (a : CodePoint) : decode (encode (.data a)) = .ok (.data a) := by
  simp [decode, encode, ifZero, opField_commandWord, subField_commandWord, rsvdField_commandWord, charB_commandWord,
    charA_commandWord]

end Sys2Proof

namespace Sys2Proof.Machine

/-! ### ProcessBlock on a block of L characters -/

section ProcessBlock

variable {s : State} {cur : List CodePoint} (w : Command) (after : State → State)

theorem processBlock_of_modeBlock_ok (hc : cur.length = s.iv.length) (hf : s.fb.length = s.iv.length)
    (hd : s.mode = .dec → TableSorted s.fwd ∧ Injective s.fwd) {out newFb : List CodePoint}
    (hb : modeBlock s cur = .ok out newFb) :
    processBlock w cur after s = .next (after (pushBlock out newFb s)) := by
  rw [processBlock, blockResult_eq hc hf hd, hb]

theorem processBlock_of_modeBlock_fail (hc : cur.length = s.iv.length) (hf : s.fb.length = s.iv.length)
    (hd : s.mode = .dec → TableSorted s.fwd ∧ Injective s.fwd) {x : CodePoint} {lane : Nat}
    (hb : modeBlock s cur = .fail x lane) :
    processBlock w cur after s = .next (errorAt s 5 w x (pos32 lane)) := by
  rw [processBlock, blockResult_eq hc hf hd, hb]
  rfl

end ProcessBlock

/-! ### DATA -/

theorem exec_data_of_run (a : CodePoint) {s : State} (hp : s.phase = .run) :
    exec (.data a) s =
      if ¬ isScalar a then .next (errorAt s 6 (encode (.data a)) a (pos32 s.buf.length))
      else if s.buf.length + 1 < s.iv.length then .next { s with buf := s.buf ++ [a], nin := s.nin + 1 }
      else processBlock (encode (.data a)) (s.buf ++ [a]) closeBlock s := by
  have hrule : exec (.data a) s = takeCharacter (encode (.data a)) a s := inPhase_of_phase hp (by decide)
  rw [hrule]
  simp [takeCharacter, raiseError_eq_errorAt, errorNumber]

/-- A character that completes the block sends it to ProcessBlock (R132). -/
theorem exec_data_completing {a : CodePoint} {s : State} (hp : s.phase = .run) (ha : isScalar a)
    (hlen : s.buf.length + 1 = s.iv.length) :
    exec (.data a) s = processBlock (encode (.data a)) (s.buf ++ [a]) closeBlock s := by
  rw [exec_data_of_run a hp, if_neg (not_not_intro ha), if_neg hlen.not_lt]

/-- Settles O13: the clauses are the branches of R132's rule, the last of them by the block function's result. -/
theorem dataFollowsItsRule : Obligations.DataFollowsItsRule := by
  intro a s hp w complete
  have hblock : s.buf.length + 1 = s.iv.length → (s.buf ++ [a]).length = s.iv.length := fun h => List.length_append.trans h
  refine ⟨decode_encode_data a, fun ha => ?notScalar, fun ha hlen => ?buffered, ?blockOk, ?blockFails⟩
  case notScalar =>
    rw [exec_data_of_run a hp, if_pos ha]
    rfl
  case buffered => rw [exec_data_of_run a hp, if_neg (not_not_intro ha), if_pos hlen]
  case blockOk =>
    rintro ha ⟨hlen, hf, hd⟩ out newFb hb
    rw [exec_data_completing hp ha hlen]
    exact processBlock_of_modeBlock_ok _ closeBlock (hblock hlen) hf hd hb
  case blockFails =>
    rintro ha ⟨hlen, hf, hd⟩ x lane hb
    rw [exec_data_completing hp ha hlen]
    exact processBlock_of_modeBlock_fail _ closeBlock (hblock hlen) hf hd hb

/-! ### DATAERR -/

/-- Settles O14: DATAERR's rule is the error entry, and the width of ERRPOS takes NIN modulo 2^32. -/
theorem dataerrFollowsItsRule : Obligations.DataerrFollowsItsRule := by
  refine ⟨rfl, fun s hp => ?_⟩
  have hrule : exec .dataerr s = .next (errorAt s 3 (encode .dataerr) 0 (s.nin.setWidth 32)) :=
    inPhase_of_phase hp (by decide)
  have hpos : s.nin.setWidth 32 = BitVec.ofNat 32 (s.nin.toNat % 2 ^ 32) := BitVec.eq_of_toNat_eq (by simp)
  rw [hrule, hpos]
  rfl

/-! ### END -/

theorem exec_endRun_of_run {s : State} (hp : s.phase = .run) :
    exec .endRun s = if s.buf = [] then .next (finishRun s)
      else processBlock (encode .endRun) (paddedBlock s) closePaddedBlock s :=
  inPhase_of_phase hp (by decide)

/-- A partial block is padded and sent to ProcessBlock (R137). -/
theorem exec_endRun_partial {s : State} (hp : s.phase = .run) (hbuf : 0 < s.buf.length) :
    exec .endRun s = processBlock (encode .endRun) (paddedBlock s) closePaddedBlock s := by
  rw [exec_endRun_of_run hp, if_neg (List.ne_nil_of_length_pos hbuf)]

/-- Padding fills the block up to L characters (R130). -/
theorem paddedBlock_length {s : State} (h : s.buf.length ≤ s.iv.length) : (paddedBlock s).length = s.iv.length := by
  rw [paddedBlock, List.length_append, List.length_replicate, Nat.add_sub_cancel' h]

/-- Settles O15: the two branches of R137's rule, the padded block by the block function's result. -/
theorem endFollowsItsRule : Obligations.EndFollowsItsRule := by
  refine ⟨rfl, fun s hp => ?_⟩
  intro r cur partialBlock
  refine ⟨fun hempty => ?empty, ?blockOk, ?blockFails⟩
  case empty =>
    rw [exec_endRun_of_run hp, if_pos (List.length_eq_zero_iff.1 hempty)]
    rfl
  case blockOk =>
    rintro ⟨hpos, hlt, hf, hd⟩ out newFb hb
    rw [exec_endRun_partial hp hpos]
    exact processBlock_of_modeBlock_ok _ closePaddedBlock (paddedBlock_length hlt.le) hf hd hb
  case blockFails =>
    rintro ⟨hpos, hlt, hf, hd⟩ x lane hb
    rw [exec_endRun_partial hp hpos]
    exact processBlock_of_modeBlock_fail _ closePaddedBlock (paddedBlock_length hlt.le) hf hd hb

end Sys2Proof.Machine
end

section
/-!
PROOFS. Beginning a run and the block cipher (42_chain_cipher.md R150, R151, R160, R162, R170): what each START command
answers in phase LOAD, the two block functions lane by lane, and ProcessBlock.
-/

namespace Sys2Proof.Machine

/-! ### START.ENC and START.DEC -/

theorem exec_startEnc_of_load {s : State} (hp : s.phase = .load) :
    exec .startEnc s = if s.iv = [] then .next (errorAt s 2 (encode .startEnc) 0 0) else .next (beginRun .enc s) :=
  inPhase_of_phase hp (by decide)

theorem exec_startDec_of_load {s : State} (hp : s.phase = .load) :
    exec .startDec s = startDecRule (encode .startDec) s :=
  inPhase_of_phase hp (by decide)

theorem exec_startDec_emptyIv {s : State} (hp : s.phase = .load) (hiv : s.iv = []) :
    exec .startDec s = .next (errorAt s 2 (encode .startDec) 0 0) := by
  rw [exec_startDec_of_load hp, startDecRule, if_pos hiv]
  rfl

theorem exec_startDec_ambiguous {s : State} (hp : s.phase = .load) (hiv : s.iv ≠ []) {v : CodePoint}
    (hv : ambiguousValue s.fwd = some v) : exec .startDec s = .next (errorAt s 4 (encode .startDec) v 0) := by
  rw [exec_startDec_of_load hp, startDecRule, if_neg hiv, hv]
  rfl

theorem exec_startDec_accepted {s : State} (hp : s.phase = .load) (hiv : s.iv ≠ []) (hv : ambiguousValue s.fwd = none) :
    exec .startDec s = .next (beginRun .dec s) := by
  rw [exec_startDec_of_load hp, startDecRule, if_neg hiv, hv]

/-- An injective table is one no two keys of which share a value, as R151 words it. -/
theorem injective_iff_no_shared_value (t : Table) :
    Injective t ↔ ∀ v, ¬ ∃ k k', k ≠ k' ∧ tableLookup t k = some v ∧ tableLookup t k' = some v := by
  constructor
  · rintro hi v ⟨k, k', hkk, hk, hk'⟩
    exact hkk (hi k k' v hk hk')
  · intro hno k k' v hk hk'
    by_contra hkk
    exact hno v ⟨k, k', hkk, hk, hk'⟩

/-- Settles O12: one clause per branch of R150's rules; in mode DEC the table's check answers by the laws of
`ambiguousValue`. -/
theorem startEncAndStartDecFollowTheirRules : Obligations.StartEncAndStartDecFollowTheirRules := by
  refine ⟨rfl, rfl, fun s hp => ?_⟩
  intro shared
  refine ⟨fun hiv => ⟨?encEmptyIv, exec_startDec_emptyIv hp hiv⟩, fun hiv => ?encAccepted, fun hiv hs hno => ?decAccepted,
    fun hiv hs v hv hleast => ?decAmbiguous⟩
  case encEmptyIv =>
    rw [exec_startEnc_of_load hp, if_pos hiv]
    rfl
  case encAccepted =>
    rw [exec_startEnc_of_load hp, if_neg hiv]
    rfl
  case decAccepted =>
    have hi : Injective s.fwd := (injective_iff_no_shared_value s.fwd).2 hno
    exact exec_startDec_accepted hp hiv ((ambiguousValue_eq_none_iff hs).2 hi)
  case decAmbiguous => exact exec_startDec_ambiguous hp hiv ((ambiguousValue_eq_some_iff hs v).2 ⟨hv, hleast⟩)

/-! ### The XOR results of a block, lane by lane -/

/-- `firstFailure_eq_some_iff` for a count from lane 0, with each lane read where it exists. -/
theorem firstFailure_eq_some_iff_getElem (xs : List CodePoint) (x : CodePoint) (lane : Nat) :
    firstFailure xs 0 = some (x, lane) ↔
      ∃ h : lane < xs.length, x = xs[lane] ∧ isScalar x = false ∧ ∀ (j : Nat) (_ : j < lane), isScalar xs[j] = true := by
  rw [firstFailure_eq_some_iff]
  constructor
  · rintro ⟨i, hi, hget, hx, hlow⟩
    obtain rfl : lane = i := by omega
    obtain ⟨h, hxs⟩ := List.getElem?_eq_some_iff.1 hget
    exact ⟨h, hxs.symm, hx, fun j hj => hlow j hj _ (List.getElem?_eq_getElem _)⟩
  · rintro ⟨h, rfl, hx, hlow⟩
    refine ⟨lane, (Nat.zero_add lane).symm, List.getElem?_eq_getElem h, hx, fun j hj y hy => ?_⟩
    obtain ⟨-, rfl⟩ := List.getElem?_eq_some_iff.1 hy
    exact hlow j hj

@[simp] theorem encXors_length (fb cur : List CodePoint) : (encXors fb cur).length = min fb.length cur.length :=
  List.length_zipWith

@[simp] theorem encXors_getElem {fb cur : List CodePoint} {i : Nat} (h : i < (encXors fb cur).length) :
    (encXors fb cur)[i] = fb[i]'(List.lt_length_left_of_zipWith h) ^^^ cur[i]'(List.lt_length_right_of_zipWith h) :=
  List.getElem_zipWith

theorem allScalar_encXors_iff (fb cur : List CodePoint) :
    AllScalar (encXors fb cur) ↔
      ∀ (i : Nat) (_ : i < fb.length) (_ : i < cur.length), isScalar (fb[i] ^^^ cur[i]) = true := by
  simp [AllScalar, List.forall_mem_iff_getElem]

theorem firstFailure_encXors_iff (fb cur : List CodePoint) (x : CodePoint) (lane : Nat) :
    firstFailure (encXors fb cur) 0 = some (x, lane) ↔
      ∃ (_ : lane < fb.length) (_ : lane < cur.length), x = fb[lane] ^^^ cur[lane] ∧ isScalar x = false
        ∧ ∀ (j : Nat) (_ : j < lane), isScalar (fb[j] ^^^ cur[j]) = true := by
  simp only [firstFailure_eq_some_iff_getElem, encXors_getElem, encXors_length, lt_inf_iff]
  exact ⟨fun ⟨⟨hf, hc⟩, h⟩ => ⟨hf, hc, h⟩, fun ⟨hf, hc, h⟩ => ⟨⟨hf, hc⟩, h⟩⟩

theorem eq_map_encXors_iff {fb cur : List CodePoint} (hlen : fb.length = cur.length) (f : CodePoint → CodePoint)
    (out : List CodePoint) :
    out = (encXors fb cur).map f ↔ out.length = fb.length
      ∧ ∀ (i : Nat) (_ : i < fb.length) (_ : i < cur.length) (_ : i < out.length), out[i] = f (fb[i] ^^^ cur[i]) := by
  rw [List.ext_getElem_iff]
  simp only [List.length_map, encXors_length, hlen, min_self, List.getElem_map, encXors_getElem]
  exact and_congr_right fun _ => ⟨fun h i _ hc ho => h i ho hc, fun h i ho hc => h i hc hc ho⟩

/-! ### The two block functions -/

/-- Settles O17: the laws of `encBlock`, read at each lane of the XOR results. -/
theorem encryptionIsLanewise : Obligations.EncryptionIsLanewise := by
  intro t fb cur hlen
  refine ⟨fun out newFb => ?_, fun x lane => ?_⟩
  · rw [encBlock_ok_iff, allScalar_encXors_iff, eq_map_encXors_iff hlen, and_right_comm, and_assoc]
  · rw [encBlock_fail_iff, firstFailure_encXors_iff]

/-- The lanes of block decryption are those of block encryption on the unsubstituted block (R170). -/
theorem decXors_eq_encXors (t : Table) (fb cur : List CodePoint) :
    decXors t fb cur = encXors fb (cur.map (unsubstitute t)) := rfl

/-- Settles O18: the laws of `decBlock`, read at each lane of the XOR results of the unsubstituted block. -/
theorem decryptionIsLanewise : Obligations.DecryptionIsLanewise := by
  intro t fb cur hlen
  have hmap : fb.length = (cur.map (unsubstitute t)).length := by rw [List.length_map, hlen]
  refine ⟨fun out newFb => ?_, fun x lane => ?_⟩
  · have hout := eq_map_encXors_iff hmap id out
    rw [List.map_id] at hout
    rw [decBlock_ok_iff, decXors_eq_encXors, allScalar_encXors_iff, hout, and_right_comm, and_assoc]
    simp only [List.getElem_map, List.length_map, id_eq]
  · rw [decBlock_fail_iff, decXors_eq_encXors, firstFailure_encXors_iff]
    simp only [List.getElem_map, List.length_map]

/-! ### ProcessBlock -/

/-- Settles O19: the block function's result decides between the two laws of ProcessBlock. -/
theorem processBlockFollowsItsRule : Obligations.ProcessBlockFollowsItsRule := fun w _ after _ hc hf hd =>
  ⟨fun _ _ hb => processBlock_of_modeBlock_ok w after hc hf hd hb,
    fun _ _ hb => processBlock_of_modeBlock_fail w after hc hf hd hb⟩

end Sys2Proof.Machine
end

section
/-!
PROOFS. NOP and CLEAR (43_control_and_host.md R180, R181): the one legal word of each of the two opcodes, the words the
port never holds, and what phase ERROR ignores.
-/

namespace Sys2Proof

/-- An opcode without operands has one well-formed word (30_encoding.md R87, R88): R88 asks 60 zero bits of it, and its
other formulas name other opcodes. -/
theorem eq_of_wellFormed_of_plain_opcode {w : Command} {op : BitVec 4}
    (hplain : op = 0x0#4 ∨ op = 0x1#4 ∨ op = 0x6#4 ∨ op = 0x7#4) (hop : w.extractLsb' 60 4 = op)
    (hw : WellFormedWord w) : w = op ++ 0#60 := by
  subst hop
  rcases hw with ⟨-, hrest⟩ | ⟨hkey, -⟩ | ⟨hchar, -⟩ | ⟨hstart, -⟩
  · rw [← hrest]
    exact (opField_append_rest w).symm
  · simp [hkey] at hplain
  · rcases hchar with hiv | hdata
    · simp [hiv] at hplain
    · simp [hdata] at hplain
  · simp [hstart] at hplain

end Sys2Proof

namespace Sys2Proof.Machine

/-! ### NOP -/

/-- Only a DATA or an END is ever held (R186). -/
theorem isHeld_eq_false_of_decode {w : Command} {i : Instr} (hd : decode w = .ok i) (hdata : ∀ a, i ≠ .data a)
    (hend : i ≠ .endRun) (s : State) : isHeld w s = false := by
  have hpush : pushesBlock w s = false := by
    unfold pushesBlock
    rw [hd]
    cases i with
    | data a => exact absurd rfl (hdata a)
    | endRun => exact absurd rfl hend
    | nop | clear | keyline | ivchar | startEnc | startDec | dataerr => rfl
  simp [isHeld, hpush]

/-- Settles O6: NOP's arm keeps the state, its word pushes no block, and no other word of its opcode is well-formed. -/
theorem nopHasNoEffect : Obligations.NopHasNoEffect := by
  obtain ⟨hillegal, -, -⟩ := illegalWordsRaiseIllegalCommand
  refine ⟨rfl, fun s => ⟨rfl, isHeld_eq_false_of_decode (i := .nop) rfl (by simp) (by simp) s⟩, fun w s hop hne hp => ?_⟩
  have hw : ¬ WellFormedWord w := fun hw => hne (eq_of_wellFormed_of_plain_opcode (.inl rfl) hop hw)
  exact (hillegal w s hw).1 hp

/-! ### CLEAR and phase ERROR -/

theorem clearUnit_atReset (s : State) : AtReset (clearUnit s) := by simp [AtReset]

theorem inPhase_of_error {need : Phase} {w : Command} {rule : State → Result} {s : State} (h : s.phase = .error) :
    inPhase need w rule s = .next s := if_pos h

/-- CLEAR is the only command phase ERROR does not ignore (60_exceptions.md R214): NOP does nothing anyway, and the
common checks answer for the others. -/
theorem exec_of_error {i : Instr} {s : State} (hp : s.phase = .error) (hi : i ≠ .clear) : exec i s = .next s := by
  cases i with
  | nop => rfl
  | clear => exact absurd rfl hi
  | keyline | ivchar | startEnc | startDec | data | dataerr | endRun => exact inPhase_of_error hp

/-- In phase ERROR a word is ignored unless it is CLEAR's, whether or not it is well-formed. -/
theorem execWord_of_error {w : Command} {s : State} (hp : s.phase = .error) (hw : w ≠ encode .clear) :
    execWord w s = .next s := by
  cases hd : decode w with
  | ok i =>
    have hi : i ≠ .clear := by
      rintro rfl
      exact hw (encode_of_decode hd).symm
    rw [execWord_of_decode hd, exec_of_error hp hi]
  | error e =>
    have hnot : ¬ WellFormedWord w := by simp [wellFormed_iff_decode_ok, hd]
    rw [execWord_of_not_wellFormed hnot, illegalCommand_of_error w hp]

/-- Settles O7: CLEAR's arm is `clearUnit`, no other word of its opcode is well-formed, and phase ERROR ignores every
other word. -/
theorem clearGivesResetState : Obligations.ClearGivesResetState := by
  obtain ⟨hillegal, -, -⟩ := illegalWordsRaiseIllegalCommand
  refine ⟨rfl, fun s => ⟨clearUnit s, rfl, clearUnit_atReset s⟩, fun w s hop hne => ?_,
    fun w s hp hne => execWord_of_error hp hne⟩
  have hw : ¬ WellFormedWord w := fun hw => hne (eq_of_wellFormed_of_plain_opcode (.inr (.inl rfl)) hop hw)
  exact hillegal w s hw

end Sys2Proof.Machine
end

section
/-!
PROOFS. Error entry and phase ERROR (60_exceptions.md R207, R210, R211, R214): a word that enters phase ERROR is one
`raiseError` of the state it found, the common checks raise SEQUENCE, and CLEAR and the reset signal are the way out.
-/

namespace Sys2Proof.Machine

/-! ### Entering phase ERROR -/

/-- Of all a command can do, only its error entry reaches phase ERROR from another phase. -/
theorem exec_enters_error {i : Instr} {s t : State} (hs : s.phase ≠ .error) (h : exec i s = .next t)
    (ht : t.phase = .error) : ∃ c v p, t = raiseError c (encode i) v p s := by
  cases exec_cases h with
  | raised _ _ _ c v p => exact ⟨c, v, p, rfl⟩
  | ignored | nop | keyLine | ivChar | buffered | block => exact absurd ht hs
  | clear | startEnc | startDec | endEmpty | endPadded => cases ht

/-- The same of any word: the word of a command is what its error entry records, and an illegal word records itself. -/
theorem execWord_enters_error {w : Command} {s t : State} (hs : s.phase ≠ .error) (h : execWord w s = .next t)
    (ht : t.phase = .error) : ∃ c v p, t = raiseError c w v p s := by
  rcases execWord_cases h with ⟨i, hd, hi⟩ | ⟨e, -, he⟩
  · rw [← encode_of_decode hd]
    exact exec_enters_error hs hi ht
  · cases he
    exact ⟨.illegalCommand, 0, 0, illegalCommand_of_not_error w hs⟩

/-- Settles O27: the new state is a `raiseError` of the old one, which writes PHASE and the four error fields. -/
theorem errorEntryIsPrecise : Obligations.ErrorEntryIsPrecise := by
  intro w s t hs h ht
  obtain ⟨c, v, p, rfl⟩ := execWord_enters_error hs h ht
  rfl

/-! ### SEQUENCE -/

/-- Outside ERROR and the command's own phase the common checks raise SEQUENCE with the phase's number. -/
theorem inPhase_out_of_phase {need : Phase} {w : Command} {rule : State → Result} {s : State} (herr : s.phase ≠ .error)
    (hneed : s.phase ≠ need) : inPhase need w rule s = .next (errorAt s 8 w ((phaseBits s.phase).setWidth 21) 0) := by
  unfold inPhase
  rw [if_neg herr, if_neg hneed, raiseError_eq_errorAt]
  rfl

/-- Settles O26: each of the seven commands begins with the common checks, for LOAD or for RUN. -/
theorem outOfPhaseCommandsRaiseSequence : Obligations.OutOfPhaseCommandsRaiseSequence := by
  intro i s n hphase hout
  obtain ⟨herr, rfl⟩ : s.phase ≠ .error ∧ (phaseBits s.phase).setWidth 21 = n := by
    rcases hphase with ⟨hp, rfl⟩ | ⟨hp, rfl⟩ | ⟨hp, rfl⟩ <;> rw [hp] <;> decide
  rcases hout with ⟨⟨_, _, _, _, _, rfl⟩ | ⟨_, rfl⟩ | rfl | rfl, hneed⟩ | ⟨⟨_, rfl⟩ | rfl | rfl, hneed⟩
  all_goals exact inPhase_out_of_phase herr hneed

/-! ### Leaving phase ERROR -/

theorem resetPort_atReset (s : State) : AtReset (resetPort s) := by simp [AtReset]

theorem runOutput_of_atReset {s : State} (h : AtReset s) : runOutput s = none := by
  obtain ⟨-, -, hok, -⟩ := h
  simp [runOutput, hok]

/-- With nothing at the command port, a reset signal is the next step. -/
theorem step_of_resetSignal {s : State} {rest : List HostAction} (hport : s.port = none)
    (hhost : s.host = .resetSignal :: rest) : step s = .next (resetPort { s with host := rest }) := by
  rw [step_eq_hostStep (.inl hport), hostStep, hhost]

/-- Settles O29: what phase ERROR ignores is `execWord_of_error` and `exec_of_error`; the two ways out end at reset,
where RUN_OK is 0 and no run has an output. -/
theorem errorPhaseIgnoresAllButClear : Obligations.ErrorPhaseIgnoresAllButClear := by
  intro s hp
  refine ⟨fun w hw => execWord_of_error hp hw, fun i hi => exec_of_error hp hi, ?_, fun rest hport hhost => ?_⟩
  · exact ⟨clearUnit s, execWord_of_decode (i := .clear) rfl s, clearUnit_atReset s,
      runOutput_of_atReset (clearUnit_atReset s)⟩
  · exact ⟨_, step_of_resetSignal hport hhost, resetPort_atReset _, runOutput_of_atReset (resetPort_atReset _)⟩

end Sys2Proof.Machine
end

section
/-!
PROOFS. Reset (70_reset_and_hazards.md R240, R241): the registers of the reset state, the reset signal against CLEAR, and
what a host that neither pops nor resets leaves of a held word.
-/

namespace Sys2Proof.Machine

/-! ### The registers after reset -/

theorem resetWith_atReset (p : Params) : AtReset (State.resetWith p) := by simp [AtReset, State.resetWith]

/-- STATUS is 0 at reset: LOAD and ENC are the zero values of their fields, and RUN_OK and ERR are 0. -/
theorem statusWord_of_atReset {s : State} (h : AtReset s) : statusWord s = 0 := by
  obtain ⟨hphase, hmode, hok, -, -, -, -, -, -, -, -, herr, -, -, -⟩ := h
  rw [statusWord, hphase, hmode, hok, herr]
  rfl

/-- Every register but CAP is a field of R240, the length of one, or a word put together from them. -/
theorem readRegister_of_atReset {s : State} (h : AtReset s) {n : BitVec 8} (hn : n ≠ 0x0A) : readRegister s n = 0 := by
  have hstatus := statusWord_of_atReset h
  obtain ⟨-, -, -, hiv, hfwd, hbuf, hoq, hnin, hnblk, hnout, hnpad, -, hcmd, hval, hpos⟩ := h
  unfold readRegister
  split
  case h_1 => exact hstatus
  case h_2 => rw [hiv]; rfl
  case h_3 => rw [hfwd]; rfl
  case h_4 => rw [hbuf]; rfl
  case h_5 => exact hnin
  case h_6 => exact hnblk
  case h_7 => exact hnout
  case h_8 => rw [hnpad]; rfl
  case h_9 => exact hcmd
  case h_10 => rw [hpos, hval]; rfl
  case h_11 hcap => exact absurd (BitVec.eq_of_toNat_eq hcap) hn
  case h_12 => rw [hoq]; rfl
  case h_13 => rfl

/-- Settles O48: what holds of every state with R240's values, for the reset state itself. -/
theorem resetStateFollowsItsRule : Obligations.ResetStateFollowsItsRule := fun p =>
  ⟨resetWith_atReset p, fun _ hn => readRegister_of_atReset (resetWith_atReset p) hn, readRegister_cap _⟩

/-! ### The reset signal and CLEAR -/

/-- The reset signal needs no free port: where no word is accepted, it is the next step (R241). -/
theorem step_eq_resetPort {s : State} {rest : List HostAction}
    (hport : s.port = none ∨ ∃ w, s.port = some w ∧ isHeld w s = true) (hhost : s.host = .resetSignal :: rest) :
    step s = .next (resetPort { s with host := rest }) := by
  rw [step_eq_hostStep hport, hostStep, hhost]

/-- CLEAR and the reset signal differ in what they leave at the ports, and in nothing else. -/
theorem clearUnit_emptied_eq_resetPort (s : State) :
    clearUnit { s with port := none, reply := .nothing } = resetPort s := rfl

theorem clear_never_held (s : State) : isHeld (encode .clear) s = false :=
  isHeld_eq_false_of_decode (i := .clear) rfl (by simp) (by simp) s

/-! ### A held word -/

/-- The hold looks at PHASE, IV, BUF, OQ and the parameters, none of which a register read writes. -/
theorem isHeld_readPort (w : Command) (n : BitVec 8) (s : State) (rest : List HostAction) :
    isHeld w (readPort n { s with host := rest }) = isHeld w s := rfl

/-- A host that neither pops nor resets leaves the word at the port and the hold on it. -/
theorem hostStep_keeps_hold {w : Command} {s : State} (hport : s.port = some w) (hheld : isHeld w s = true)
    (hpop : ∀ rest, s.host ≠ .pop :: rest) (hreset : ∀ rest, s.host ≠ .resetSignal :: rest) :
    (hostStep s).port = some w ∧ isHeld w (hostStep s) = true := by
  rcases hostStep_cases s with e | ⟨w', rest, -, hnone, -⟩ | ⟨n, rest, -, e⟩ | ⟨rest, hh, -⟩ | ⟨rest, hh, -⟩
  · rw [e]
    exact ⟨hport, hheld⟩
  · rw [hport] at hnone
    cases hnone
  · rw [e]
    exact ⟨hport, (isHeld_readPort w n s rest).trans hheld⟩
  · exact absurd hh (hpop rest)
  · exact absurd hh (hreset rest)

/-- Settles O42: both ways to reset end in `resetPort`, and a step with a held word is the host's. -/
theorem resetSignalGivesResetState : Obligations.ResetSignalGivesResetState := by
  refine ⟨fun s rest hhost hport => ?_, clear_never_held, fun w s t hport hheld h hpop hreset => ?_⟩
  · have hstep := step_eq_resetPort hport hhost
    refine ⟨⟨_, hstep, resetPort_atReset _, rfl, rfl, rfl⟩, ?_⟩
    rw [hstep]
    exact congrArg _ (clearUnit_emptied_eq_resetPort { s with host := rest })
  · have hstep := step_eq_hostStep (.inr ⟨w, hport, hheld⟩)
    obtain rfl : hostStep s = t := by simpa [hstep] using h
    exact hostStep_keeps_hold hport hheld hpop hreset

end Sys2Proof.Machine
end

section
/-!
PROOFS. Decoding the encoding of every command (30_encoding.md sections 1 to 3), its converse, and the words written out in
the spec.
-/

namespace Sys2Proof

/-- Each command's word decodes to it; the commands without operands have one word each, which the decoder reads. -/
theorem decode_encode (i : Instr) : decode (encode i) = .ok i := by
  cases i with
  | keyline ntok s0 s1 a b => exact decode_encode_keyline ntok s0 s1 a b
  | ivchar a => exact decode_encode_ivchar a
  | data a => exact decode_encode_data a
  | nop | clear | startEnc | startDec | dataerr | endRun => rfl

/-- Settles O1: `decode_encode`, where the fields of an assembled word are the operands. -/
theorem decodeOfEncodeIsIdentity : Obligations.DecodeOfEncodeIsIdentity := decode_encode

/-- Settles O2: `encode_of_decode`, where the decoder's checks fix every bit that is no operand. -/
theorem encodeOfDecodeIsIdentity : Obligations.EncodeOfDecodeIsIdentity := fun _ _ => encode_of_decode

/-- Settles O5: the accepted words are the encodings of their commands; the decoder rejects the other two. -/
theorem sampleWordsDecode : Obligations.SampleWordsDecode :=
  ⟨decode_encode .nop, decode_encode .clear, decode_encode (.keyline 2 true true 0x58 0x59),
    decode_encode (.keyline 1 true false 0x58 0), decode_encode (.ivchar 0x41), decode_encode .startEnc,
    decode_encode .startDec, decode_encode (.data 0x10FFFF), decode_encode .dataerr, decode_encode .endRun, rfl, rfl⟩

end Sys2Proof
end

section
/-!
PROOFS. The frames of the commands, read off what a command can do at all (`ExecCase`), and the errors each command raises
(60_exceptions.md section 1).
-/

namespace Sys2Proof.Machine

/-! ### Frames -/

/-- Settles O31: of all a command can do, only CLEAR writes a field that is not the unit's run. -/
theorem commandsLeavePortsAndParameters : Obligations.CommandsLeavePortsAndParameters := by
  intro i s t h
  cases exec_cases h with
  | clear => exact ⟨rfl, rfl, rfl, rfl, fun hi => absurd rfl hi⟩
  | ignored | nop | raised | keyLine | ivChar | startEnc | startDec | buffered | block | endEmpty | endPadded =>
    exact ⟨rfl, rfl, rfl, rfl, fun _ => rfl⟩

/-- Settles O32: an accepted KEYLINE writes FWD, an accepted IVCHAR writes IV, and the error entry neither. -/
theorem loadingFrame : Obligations.LoadingFrame := by
  intro i s t h hi
  cases exec_cases h with
  | ignored _ _ hp =>
    exact ⟨rfl, rfl, rfl, rfl, rfl, rfl, rfl, rfl, rfl, fun _ => rfl, fun _ => rfl, fun hne => absurd hp hne⟩
  | raised => exact ⟨rfl, rfl, rfl, rfl, rfl, rfl, rfl, rfl, rfl, fun _ => rfl, fun _ => rfl, fun hne => absurd rfl hne⟩
  | keyLine =>
    exact ⟨rfl, rfl, rfl, rfl, rfl, rfl, rfl, rfl, rfl, fun _ => rfl, by simp, fun _ => ⟨rfl, rfl, rfl, rfl, rfl⟩⟩
  | ivChar =>
    exact ⟨rfl, rfl, rfl, rfl, rfl, rfl, rfl, rfl, rfl, by simp, fun _ => rfl, fun _ => ⟨rfl, rfl, rfl, rfl, rfl⟩⟩
  | nop | clear | startEnc | startDec | buffered | block | endEmpty | endPadded => simp at hi

/-- Settles O33: START writes MODE, FB, BUF and PHASE, or enters ERROR. -/
theorem startFrame : Obligations.StartFrame := by
  intro i s t hi h
  cases exec_cases h with
  | ignored _ _ hp =>
    exact ⟨rfl, rfl, rfl, rfl, rfl, rfl, rfl, rfl, fun _ => ⟨rfl, rfl, rfl⟩, fun hne => absurd hp hne⟩
  | raised => exact ⟨rfl, rfl, rfl, rfl, rfl, rfl, rfl, rfl, fun _ => ⟨rfl, rfl, rfl⟩, fun hne => absurd rfl hne⟩
  | startEnc | startDec =>
    exact ⟨rfl, rfl, rfl, rfl, rfl, rfl, rfl, rfl, nofun, fun _ => ⟨rfl, rfl, rfl, rfl⟩⟩
  | nop | clear | keyLine | ivChar | buffered | block | endEmpty | endPadded => simp at hi

/-- NBLK tells a command that processed a block from one that did not, also when it wraps. -/
theorem nblk_add_one_ne (n : BitVec 64) : n + 1 ≠ n := by
  intro h
  bv_omega

/-- Settles O34: the two cases with a block append its output to OQ and count it in NBLK; the others leave both. -/
theorem payloadFrame : Obligations.PayloadFrame := by
  intro i s t h hi
  cases exec_cases h with
  | ignored _ _ hp =>
    exact ⟨rfl, rfl, rfl, fun _ => ⟨rfl, rfl⟩, fun _ => rfl, fun _ => ⟨rfl, rfl, rfl, rfl⟩, fun _ => ⟨rfl, rfl, rfl, rfl⟩,
      ⟨[], (List.append_nil _).symm⟩, fun hne => absurd hp hne⟩
  | raised =>
    exact ⟨rfl, rfl, rfl, fun _ => ⟨rfl, rfl⟩, fun _ => rfl, fun _ => ⟨rfl, rfl, rfl, rfl⟩, fun _ => ⟨rfl, rfl, rfl, rfl⟩,
      ⟨[], (List.append_nil _).symm⟩, fun hne => absurd rfl hne⟩
  | buffered =>
    exact ⟨rfl, rfl, rfl, fun _ => ⟨rfl, rfl⟩, nofun, nofun, fun _ => ⟨rfl, rfl, rfl, rfl⟩,
      ⟨[], (List.append_nil _).symm⟩, fun _ => ⟨rfl, rfl, rfl, rfl⟩⟩
  | endEmpty =>
    exact ⟨rfl, rfl, rfl, nofun, fun _ => rfl, nofun, fun _ => ⟨rfl, rfl, rfl, rfl⟩,
      ⟨[], (List.append_nil _).symm⟩, fun _ => ⟨rfl, rfl, rfl, rfl⟩⟩
  | block _ _ out =>
    exact ⟨rfl, rfl, rfl, fun _ => ⟨rfl, rfl⟩, nofun, nofun, fun heq => absurd heq (nblk_add_one_ne s.nblk),
      ⟨out, rfl⟩, fun _ => ⟨rfl, rfl, rfl, rfl⟩⟩
  | endPadded _ out =>
    exact ⟨rfl, rfl, rfl, nofun, fun _ => rfl, nofun, fun heq => absurd heq (nblk_add_one_ne s.nblk),
      ⟨out, rfl⟩, fun _ => ⟨rfl, rfl, rfl, rfl⟩⟩
  | nop | clear | keyLine | ivChar | startEnc | startDec => simp at hi

/-- IV and FWD are written in phase LOAD, and by CLEAR. -/
theorem exec_keeps_iv_fwd {i : Instr} {s t : State} (hp : s.phase ≠ .load) (h : exec i s = .next t) :
    (t.iv = s.iv ∧ t.fwd = s.fwd) ∨ (t.phase = .load ∧ t.iv = [] ∧ t.fwd = []) := by
  cases exec_cases h with
  | clear => exact .inr ⟨rfl, rfl, rfl⟩
  | keyLine _ _ _ hl | ivChar _ _ hl => exact absurd hl hp
  | ignored | nop | raised | startEnc | startDec | buffered | block | endEmpty | endPadded => exact .inl ⟨rfl, rfl⟩

@[simp] theorem illegalCommand_iv (w : Command) (s : State) : (illegalCommand w s).iv = s.iv := by
  unfold illegalCommand; split_ifs <;> rfl
@[simp] theorem illegalCommand_fwd (w : Command) (s : State) : (illegalCommand w s).fwd = s.fwd := by
  unfold illegalCommand; split_ifs <;> rfl
/-- Of the host's actions only the reset signal reaches more than OQ and the model's own fields (log 2). -/
theorem hostStep_keeps_unit (s : State) :
    hostStep s = { s with oq := (hostStep s).oq, port := (hostStep s).port, host := (hostStep s).host,
                          reply := (hostStep s).reply, popped := (hostStep s).popped }
      ∨ ∃ rest, s.host = .resetSignal :: rest ∧ hostStep s = resetPort { s with host := rest } := by
  rcases hostStep_cases s with e | ⟨w, rest, -, -, e⟩ | ⟨n, rest, -, e⟩ | ⟨rest, -, e⟩ | ⟨rest, hh, e⟩
  · exact .inl (by rw [e])
  · exact .inl (by rw [e]; rfl)
  · exact .inl (by rw [e]; rfl)
  · rcases popPort_cases { s with host := rest } with ⟨-, epop⟩ | ⟨c, cs, -, epop⟩
    · exact .inl (by rw [e, epop])
    · exact .inl (by rw [e, epop])
  · exact .inr ⟨rest, hh, e⟩

/-- Settles O53: outside LOAD only CLEAR and the reset signal write IV or FWD, and both empty them. -/
theorem tableAndIvFixedOutsideLoad : Obligations.TableAndIvFixedOutsideLoad := by
  intro s t hp h
  rcases step_cases h with ⟨w, -, -, hx⟩ | ⟨-, e⟩
  · rcases execWord_cases hx with ⟨i, -, hi⟩ | ⟨_, -, e⟩
    · exact exec_keeps_iv_fwd (s := { s with port := none, reply := .nothing }) hp hi
    · cases e
      exact .inl ⟨illegalCommand_iv w _, illegalCommand_fwd w _⟩
  · cases e
    rcases hostStep_keeps_unit s with e | ⟨rest, -, e⟩ <;> rw [e]
    · exact .inl ⟨rfl, rfl⟩
    · exact .inr ⟨rfl, rfl, rfl⟩

/-! ### KEYLINE and IVCHAR in either order -/

/-- A KEYLINE that stays in LOAD was accepted. -/
theorem keyline_accepted_of_load {ntok : BitVec 2} {s0 s1 : Bool} {a b : CodePoint} {s t : State} (hp : s.phase = .load)
    (h : exec (.keyline ntok s0 s1 a b) s = .next t) (ht : t.phase = .load) :
    (ntok = 2 ∧ s0 = true ∧ s1 = true) ∧ isScalar a = true ∧ isScalar b = true
      ∧ ¬ (tableLookup s.fwd a = none ∧ s.fwd.length = s.params.tmax) ∧ t = { s with fwd := tableInsert s.fwd a b } := by
  cases exec_cases h with
  | ignored _ _ herr => simp [hp] at herr
  | raised => cases ht
  | keyLine _ _ _ _ ha hb hroom => exact ⟨⟨rfl, rfl, rfl⟩, ha, hb, fun ⟨hnew, hfull⟩ => hroom hnew hfull, rfl⟩

/-- An IVCHAR that stays in LOAD was accepted. -/
theorem ivchar_accepted_of_load {c : CodePoint} {s t : State} (hp : s.phase = .load)
    (h : exec (.ivchar c) s = .next t) (ht : t.phase = .load) :
    isScalar c = true ∧ s.iv.length ≠ s.params.lmax ∧ t = { s with iv := s.iv ++ [c] } := by
  cases exec_cases h with
  | ignored _ _ herr => simp [hp] at herr
  | raised => cases ht
  | ivChar _ _ _ ha hroom => exact ⟨ha, hroom, rfl⟩

theorem exec_ivchar_accepted {c : CodePoint} {s : State} (hp : s.phase = .load) (hc : isScalar c = true)
    (hroom : s.iv.length ≠ s.params.lmax) : exec (.ivchar c) s = .next { s with iv := s.iv ++ [c] } := by
  rw [exec_ivchar_of_load c hp, if_neg (not_not_intro hc), if_neg hroom]

/-- Settles O11: the checks of each command read what the other one does not write. -/
theorem keylineAndIvcharCommute : Obligations.KeylineAndIvcharCommute := by
  intro ntok s0 s1 a b c s t u hp hkey ht hiv hu
  obtain ⟨⟨rfl, rfl, rfl⟩, ha, hb, hroom, rfl⟩ := keyline_accepted_of_load hp hkey ht
  obtain ⟨hc, hlen, rfl⟩ := ivchar_accepted_of_load ht hiv hu
  exact ⟨_, exec_ivchar_accepted hp hc hlen, hp, exec_keyline_accepted (s := { s with iv := s.iv ++ [c] }) hp ha hb hroom⟩

/-! ### The errors of each command -/

/-- A command that is legal in one phase raises SEQUENCE there where it is not, and its rule's errors where it is. -/
theorem inPhase_raises {need : Phase} {w : Command} {rule : State → Result} {s t : State} (hs : s.phase ≠ .error)
    (h : inPhase need w rule s = .next t) : t.err = 8 ∨ s.phase = need ∧ rule s = .next t := by
  rcases inPhase_cases h with ⟨hp, -⟩ | ⟨-, hp, e⟩ | ⟨-, -, e⟩
  · exact absurd hp hs
  · exact .inr ⟨hp, e⟩
  · cases e
    exact .inl rfl

theorem loadKeyLine_raises {w : Command} {ntok : BitVec 2} {s0 s1 : Bool} {a b : CodePoint} {s t : State}
    (hs : s.phase ≠ .error) (h : loadKeyLine w ntok s0 s1 a b s = .next t) (ht : t.phase = .error) :
    t.err = 1 ∨ t.err = 6 ∨ t.err = 9 := by
  unfold loadKeyLine at h
  split_ifs at h with hmal ha hb hfull <;> cases h
  · exact .inl rfl
  · exact .inr (.inl rfl)
  · exact .inr (.inl rfl)
  · exact .inr (.inr rfl)
  · exact absurd ht hs

theorem loadIvChar_raises {w : Command} {a : CodePoint} {s t : State} (hs : s.phase ≠ .error)
    (h : loadIvChar w a s = .next t) (ht : t.phase = .error) : t.err = 6 ∨ t.err = 10 := by
  unfold loadIvChar at h
  split_ifs at h with ha hlen <;> cases h
  · exact .inl rfl
  · exact .inr rfl
  · exact absurd ht hs

theorem startEncRule_raises {w : Command} {s t : State} (h : startEncRule w s = .next t) (ht : t.phase = .error) :
    t.err = 2 := by
  unfold startEncRule at h
  split_ifs at h with hiv <;> cases h
  · rfl
  · cases ht

theorem startDecRule_raises {w : Command} {s t : State} (h : startDecRule w s = .next t) (ht : t.phase = .error) :
    t.err = 2 ∨ t.err = 4 := by
  unfold startDecRule at h
  split_ifs at h with hiv
  · cases h
    exact .inl rfl
  · cases hv : ambiguousValue s.fwd with
    | none =>
      rw [hv] at h
      cases h
      cases ht
    | some v =>
      rw [hv] at h
      cases h
      exact .inr rfl

/-- ProcessBlock raises RESULT_NOT_SCALAR only; what follows a block that succeeded does not enter ERROR. -/
theorem processBlock_raises {w : Command} {cur : List CodePoint} {after : State → State} {s t : State}
    (hafter : ∀ out nf, (after (pushBlock out nf s)).phase ≠ .error) (h : processBlock w cur after s = .next t)
    (ht : t.phase = .error) : t.err = 5 := by
  obtain ⟨-, -, ⟨out, nf, -, rfl⟩ | ⟨x, lane, -, rfl⟩⟩ := processBlock_cases h
  · exact absurd ht (hafter out nf)
  · rfl

theorem takeCharacter_raises {w : Command} {a : CodePoint} {s t : State} (hs : s.phase ≠ .error)
    (h : takeCharacter w a s = .next t) (ht : t.phase = .error) : t.err = 5 ∨ t.err = 6 := by
  unfold takeCharacter at h
  split_ifs at h with ha hl
  · cases h
    exact .inr rfl
  · cases h
    exact absurd ht hs
  · exact .inl (processBlock_raises (fun _ _ => hs) h ht)

theorem endPayload_raises {w : Command} {s t : State} (h : endPayload w s = .next t) (ht : t.phase = .error) :
    t.err = 5 := by
  unfold endPayload at h
  split_ifs at h with hbuf
  · cases h
    cases ht
  · exact processBlock_raises (by simp) h ht

/-- Settles O28: SEQUENCE from the common checks, or one of the errors of the command's own rule. -/
theorem commandsRaiseOnlyTheirErrors : Obligations.CommandsRaiseOnlyTheirErrors := by
  intro i s t hs h ht
  cases i with
  | nop =>
    cases h
    exact hs ht
  | clear =>
    cases h
    cases ht
  | keyline =>
    rcases inPhase_raises hs h with h8 | ⟨-, hrule⟩
    · exact .inr (.inr (.inl h8))
    · rcases loadKeyLine_raises hs hrule ht with h1 | h6 | h9
      · exact .inl h1
      · exact .inr (.inl h6)
      · exact .inr (.inr (.inr h9))
  | ivchar =>
    rcases inPhase_raises hs h with h8 | ⟨-, hrule⟩
    · exact .inr (.inl h8)
    · exact (loadIvChar_raises hs hrule ht).imp_right .inr
  | startEnc =>
    rcases inPhase_raises hs h with h8 | ⟨-, hrule⟩
    · exact .inr h8
    · exact .inl (startEncRule_raises hrule ht)
  | startDec =>
    rcases inPhase_raises hs h with h8 | ⟨-, hrule⟩
    · exact .inr (.inr h8)
    · exact (startDecRule_raises hrule ht).imp_right .inl
  | data =>
    rcases inPhase_raises hs h with h8 | ⟨-, hrule⟩
    · exact .inr (.inr h8)
    · exact (takeCharacter_raises hs hrule ht).imp_right .inl
  | dataerr =>
    rcases inPhase_raises hs h with h8 | ⟨-, hrule⟩
    · exact .inr h8
    · cases hrule
      exact .inl rfl
  | endRun =>
    rcases inPhase_raises hs h with h8 | ⟨-, hrule⟩
    · exact .inr h8
    · exact .inl (endPayload_raises hrule ht)

/-! ### Phase ERROR -/

/-- Settles O30: a word that is not CLEAR is ignored, and of the host's actions only the reset signal reaches more than OQ. -/
theorem errorRecordKeptUntilClear : Obligations.ErrorRecordKeptUntilClear := by
  intro s t hp h
  rcases step_cases h with ⟨w, hport, -, hx⟩ | ⟨-, e⟩
  · by_cases hw : w = encode .clear
    · subst hw
      rw [execWord_of_decode (decode_encode .clear)] at hx
      cases hx
      exact .inr ⟨clearUnit_atReset _, .inl hport⟩
    · have hignored := execWord_of_error (s := { s with port := none, reply := .nothing }) hp hw
      cases hignored.symm.trans hx
      exact .inl ⟨hp, rfl, rfl, rfl, rfl, rfl, rfl, rfl, rfl, rfl, rfl, rfl, rfl, rfl, rfl⟩
  · cases e
    rcases hostStep_keeps_unit s with e | ⟨rest, hh, e⟩ <;> rw [e]
    · exact .inl ⟨hp, rfl, rfl, rfl, rfl, rfl, rfl, rfl, rfl, rfl, rfl, rfl, rfl, rfl, rfl⟩
    · exact .inr ⟨resetPort_atReset _, .inr ⟨rest, hh⟩⟩

end Sys2Proof.Machine
end

section
/-!
PROOFS. The three ports (43_control_and_host.md R183 to R188; 70_reset_and_hazards.md sections 3 and 4): the presented word,
register reads, pops, the hold rule, and what a pop has to do with the commands of a run.
-/

namespace Sys2Proof.Machine

/-! ### The command port -/

theorem execWord_of_error_decode {w : Command} {e : DecodeError} (hd : decode w = .error e) (s : State) :
    execWord w s = .next (illegalCommand w s) := by
  unfold execWord
  rw [hd]

/-- Settles O35: a word that is not held is accepted, and executed as its command or as an illegal one. -/
theorem stepExecutesThePresentedWord : Obligations.StepExecutesThePresentedWord := by
  intro w s hport hfree
  rw [step_eq_execWord hport hfree]
  refine ⟨fun i hd => execWord_of_decode hd _, fun e hd hp => ?_, fun e hd hp => ?_⟩
  · rw [execWord_of_error_decode hd]
    exact congrArg _ (illegalCommand_of_not_error w (s := { s with port := none, reply := .nothing }) hp)
  · rw [execWord_of_error_decode hd]
    exact congrArg _ (illegalCommand_of_error w (s := { s with port := none, reply := .nothing }) hp)

/-- Settles O36: with an empty port the step is the host's, and the two clauses are two of its actions. -/
theorem hostWritePresentsTheWord : Obligations.HostWritePresentsTheWord := by
  intro s hport
  rw [step_eq_hostStep (.inl hport)]
  refine ⟨fun w rest hhost => ?_, fun hhost => ?_⟩
  · rw [hostStep, hhost]
    exact congrArg _ (if_pos hport)
  · rw [hostStep, hhost]

/-! ### Register reads -/

/-- Settles O39: every register is put together from the values the two states agree on. -/
theorem registersHideTheCipherState : Obligations.RegistersHideTheCipherState := by
  intro s s' n hphase hmode hok hiv hfwd hbuf hoq hnin hnblk hnout hnpad herr hcmd hval hpos hparams
  have hstatus : statusWord s = statusWord s' := by rw [statusWord, statusWord, hphase, hmode, hok, herr]
  simp only [readRegister, hstatus, hiv, hfwd, hbuf, hoq, hnin, hnblk, hnout, hnpad, hcmd, hval, hpos, hparams]

/-- A register other than OQCOUNT does not depend on OQ, nor on the model's own fields. -/
theorem readRegister_of_ports (s : State) {n : BitVec 8} (hn : n ≠ 0x0B) (oq popped : List CodePoint) (r : Reply) :
    readRegister { s with oq := oq, popped := popped, reply := r } n = readRegister s n := by
  unfold readRegister
  split
  case h_12 hcount => exact absurd (BitVec.eq_of_toNat_eq hcount) hn
  all_goals rfl

/-- Settles O38: a read is a host action that writes the reply, and a pop writes no register but OQCOUNT. -/
theorem registerReadsAreServedWithoutEffect : Obligations.RegisterReadsAreServedWithoutEffect := by
  refine ⟨fun s n rest hhost hport => ?_, fun s n hn => ?_⟩
  · rw [step_eq_hostStep hport, hostStep, hhost]
    rfl
  · rcases popPort_cases s with ⟨-, e⟩ | ⟨c, cs, -, e⟩ <;> rw [e]
    · exact readRegister_of_ports s hn s.oq s.popped _
    · exact readRegister_of_ports s hn cs _ _

/-! ### Pops -/

theorem outputWord_valid (c : CodePoint) : (outputWord c).getLsbD 21 = true := by
  rw [outputWord, BitVec.getLsbD_append]
  rfl

theorem outputWord_character (c : CodePoint) : (outputWord c).extractLsb' 0 21 = c :=
  BitVec.extractLsb'_append_eq_right

theorem popPort_of_empty {s : State} (hoq : s.oq = []) : popPort s = { s with reply := .output 0 } := by
  rw [popPort, hoq]

theorem popPort_of_cons {s : State} {c : CodePoint} {cs : List CodePoint} (hoq : s.oq = c :: cs) :
    popPort s = { s with oq := cs, popped := s.popped ++ [c], reply := .output (outputWord c) } := by
  rw [popPort, hoq]

theorem step_of_pop {s : State} {rest : List HostAction}
    (hport : s.port = none ∨ ∃ w, s.port = some w ∧ isHeld w s = true) (hhost : s.host = .pop :: rest) :
    step s = .next (popPort { s with host := rest }) := by
  rw [step_eq_hostStep hport, hostStep, hhost]

/-- Settles O40: the two cases of a pop, with the bits of the output word (R90). -/
theorem popAnswersTheHeadOfTheQueue : Obligations.PopAnswersTheHeadOfTheQueue := by
  intro s rest hhost hport
  rw [step_of_pop hport hhost]
  refine ⟨fun hoq => ?_, fun c cs hoq => ⟨outputWord c, outputWord_valid c, outputWord_character c, ?_⟩⟩
  · exact congrArg _ (popPort_of_empty (s := { s with host := rest }) hoq)
  · exact congrArg _ (popPort_of_cons (s := { s with host := rest }) hoq)

/-! ### The hold rule -/

/-- The words that push a block: a DATA that completes one, and an END with a partial one (R186). -/
theorem pushesBlock_iff (w : Command) (s : State) :
    pushesBlock w s = true ↔
      (∃ a, decode w = .ok (.data a)) ∧ s.buf.length + 1 = s.iv.length ∨ decode w = .ok .endRun ∧ 0 < s.buf.length := by
  unfold pushesBlock
  cases hd : decode w with
  | error e => simp
  | ok i => cases i <;> simp

/-- The invariant's bounds on the parameters and the IV leave an empty queue with room for a block (R16). -/
theorem isHeld_eq_false_of_oq_nil {w : Command} {s : State} (hparams : s.params.WF) (hiv : s.iv.length ≤ s.params.lmax)
    (hoq : s.oq = []) : isHeld w s = false := by
  obtain ⟨-, -, -, hdepth⟩ := hparams
  by_contra hheld
  obtain ⟨-, -, hroom⟩ := (isHeld_iff w s).1 (by simpa using hheld)
  obtain ⟨d, hd, hlt⟩ := (lacksRoom_iff s).1 hroom
  have hle := hdepth d hd
  rw [hoq, List.length_nil] at hlt
  omega

/-- A host that waits to write while a word stands at the port repeats the state (log 4). -/
theorem step_of_waiting_write {w w' : Command} {s : State} {rest : List HostAction} (hport : s.port = some w)
    (hheld : isHeld w s = true) (hhost : s.host = .write w' :: rest) : step s = .next s := by
  rw [step_eq_hostStep (.inr ⟨w, hport, hheld⟩), hostStep, hhost]
  exact congrArg _ (if_neg (by simp [hport]))

theorem step_of_idle_host {w : Command} {s : State} (hport : s.port = some w) (hheld : isHeld w s = true)
    (hhost : s.host = []) : step s = .next s := by
  rw [step_eq_hostStep (.inr ⟨w, hport, hheld⟩), hostStep, hhost]

/-- Of the host's actions at a held word, only a pop and the reset signal reach the unit. -/
theorem hostStep_keeps_unit_of_hold {w : Command} {s : State} (hport : s.port = some w)
    (hpop : ∀ rest, s.host ≠ .pop :: rest) (hreset : ∀ rest, s.host ≠ .resetSignal :: rest) :
    hostStep s = { s with host := (hostStep s).host, reply := (hostStep s).reply } := by
  rcases hostStep_cases s with e | ⟨w', rest, -, hnone, -⟩ | ⟨n, rest, -, e⟩ | ⟨rest, hh, -⟩ | ⟨rest, hh, -⟩
  · rw [e]
  · simp [hport] at hnone
  · rw [e]
    rfl
  · exact absurd hh (hpop rest)
  · exact absurd hh (hreset rest)

/-- Settles O41: the hold is its three conditions, and a step with a held word is the host's. -/
theorem holdFollowsItsRule : Obligations.HoldFollowsItsRule := by
  refine ⟨fun w s => ?_, fun w s hport hheld => ⟨?_, ?_, ?_⟩, fun w s => isHeld_eq_false_of_oq_nil⟩
  · have hroom : ∀ d : Nat, (d : Int) - (s.iv.length : Int) < (s.oq.length : Int) ↔ d < s.oq.length + s.iv.length := by
      intro d
      omega
    rw [isHeld_iff, pushesBlock_iff, lacksRoom_iff]
    simp only [hroom]
  · exact fun w' rest => step_of_waiting_write hport hheld
  · exact step_of_idle_host hport hheld
  · intro t h hpop hreset
    rw [step_eq_hostStep (.inr ⟨w, hport, hheld⟩)] at h
    cases h
    exact hostStep_keeps_unit_of_hold hport hpop hreset

/-- Settles O44: the waiting step repeats the state, so any number of steps does. -/
theorem hostThatDoesNotPopHangs : Obligations.HostThatDoesNotPopHangs := by
  intro w w' s rest n hport hheld hhost
  induction n with
  | zero => rfl
  | succ n ih =>
    rw [stepMany, step_of_waiting_write hport hheld hhost]
    exact ih

/-- Each pop at a held word takes one character off OQ, and an empty OQ holds no word: the induction is on what OQ holds. -/
theorem pops_free_held_word {w : Command} {rest : List HostAction} (cs : List CodePoint) :
    ∀ s : State, s.params.WF → s.iv.length ≤ s.params.lmax → s.oq = cs → s.port = some w →
      s.host = List.replicate cs.length .pop ++ rest →
      ∃ k t, k ≤ cs.length ∧ stepMany k s = .next t ∧ t.port = some w ∧ isHeld w t = false ∧ t.buf = s.buf := by
  induction cs with
  | nil =>
    intro s hparams hiv hoq hport _
    exact ⟨0, s, Nat.le_refl 0, rfl, hport, isHeld_eq_false_of_oq_nil hparams hiv hoq, rfl⟩
  | cons c cs ih =>
    intro s hparams hiv hoq hport hhost
    cases hheld : isHeld w s with
    | false => exact ⟨0, s, Nat.zero_le _, rfl, hport, hheld, rfl⟩
    | true =>
      have hpop := step_of_pop (.inr ⟨w, hport, hheld⟩) hhost
      have hcons := popPort_of_cons (s := { s with host := List.replicate cs.length .pop ++ rest }) hoq
      obtain ⟨k, t, hk, hrun, ht⟩ := ih
        { s with host := List.replicate cs.length .pop ++ rest, oq := cs, popped := s.popped ++ [c],
                 reply := .output (outputWord c) }
        hparams hiv rfl hport rfl
      refine ⟨k + 1, t, Nat.succ_le_succ hk, ?_, ht⟩
      rw [stepMany, hpop.trans (congrArg _ hcons)]
      exact hrun

/-- Settles O43: the invariant gives the bounds under which pops free the word. -/
theorem popsFreeAHeldCommand : Obligations.PopsFreeAHeldCommand := fun _ s _ inv hport _ hhost =>
  pops_free_held_word s.oq s inv.params inv.iv_room rfl hport hhost

/-! ### A pop and a command of a run -/

/-- An update that neither reads nor writes OQ, the popped characters and the reply. -/
def LeavesOutput (g : State → State) : Prop :=
  ∀ (s : State) (oq popped : List CodePoint) (r : Reply),
    g { s with oq := oq, popped := popped, reply := r } = { g s with oq := oq, popped := popped, reply := r }

theorem popPort_of_leavesOutput {g : State → State} (hg : LeavesOutput g) (s : State) :
    g (popPort s) = popPort (g s) := by
  have hframe : g s = { g s with oq := s.oq, popped := s.popped, reply := s.reply } := hg s s.oq s.popped s.reply
  have hoq : (g s).oq = s.oq := by rw [hframe]
  have hpopped : (g s).popped = s.popped := by rw [hframe]
  rcases popPort_cases s with ⟨hnil, e⟩ | ⟨c, cs, hcons, e⟩
  · rw [e, popPort_of_empty (hoq.trans hnil)]
    exact (hg s s.oq s.popped _).trans (by rw [← hoq, ← hpopped])
  · rw [e, popPort_of_cons (hoq.trans hcons), hpopped]
    exact hg s cs _ _

/-- A block's output goes to the end of OQ, so it leaves the head for the pop. -/
theorem popPort_pushBlock (out nf : List CodePoint) {s : State} (hoq : s.oq ≠ []) :
    pushBlock out nf (popPort s) = popPort (pushBlock out nf s) := by
  obtain ⟨c, cs, hcons⟩ := List.exists_cons_of_ne_nil hoq
  have hpush : (pushBlock out nf s).oq = c :: (cs ++ out) := by simp [hcons]
  rw [popPort_of_cons hcons, popPort_of_cons hpush]
  rfl

theorem blockResult_popPort (s : State) (cur : List CodePoint) : blockResult (popPort s) cur = blockResult s cur := by
  rcases popPort_cases s with ⟨-, e⟩ | ⟨c, cs, -, e⟩ <;> rw [e] <;> rfl

theorem processBlock_popPort {w : Command} {cur : List CodePoint} {after : State → State} {s t : State}
    (hoq : s.oq ≠ []) (hafter : LeavesOutput after) (h : processBlock w cur after s = .next t) :
    processBlock w cur after (popPort s) = .next (popPort t) := by
  unfold processBlock at h ⊢
  rw [blockResult_popPort]
  cases hb : blockResult s cur with
  | undefined f =>
    rw [hb] at h
    cases h
  | ok out nf =>
    rw [hb] at h
    cases h
    have hpush := congrArg after (popPort_pushBlock out nf hoq)
    exact congrArg _ (hpush.trans (popPort_of_leavesOutput hafter _))
  | fail x lane =>
    rw [hb] at h
    cases h
    exact congrArg _ (popPort_of_leavesOutput (g := raiseError .resultNotScalar w x (pos32 lane)) (fun _ _ _ _ => rfl) s)

@[simp] theorem popPort_buf (s : State) : (popPort s).buf = s.buf := by unfold popPort; cases s.oq <;> rfl
@[simp] theorem popPort_iv (s : State) : (popPort s).iv = s.iv := by unfold popPort; cases s.oq <;> rfl
@[simp] theorem popPort_nin (s : State) : (popPort s).nin = s.nin := by unfold popPort; cases s.oq <;> rfl

/-- The common checks read PHASE, which a pop does not write. -/
theorem inPhase_popPort {need : Phase} {w : Command} {rule : State → Result} {s t : State}
    (hrule : s.phase = need → rule s = .next t → rule (popPort s) = .next (popPort t))
    (h : inPhase need w rule s = .next t) : inPhase need w rule (popPort s) = .next (popPort t) := by
  rcases inPhase_cases h with ⟨hp, e⟩ | ⟨herr, hp, e⟩ | ⟨herr, hp, e⟩
  · cases e
    exact inPhase_of_error (by simpa using hp)
  · rw [inPhase_of_phase (by simpa using hp) (hp ▸ herr)]
    exact hrule hp e
  · cases e
    rw [inPhase_out_of_phase (by simpa using herr) (by simpa using hp), popPort_phase]
    exact congrArg _ (popPort_of_leavesOutput (g := raiseError .sequence w _ 0) (fun _ _ _ _ => rfl) s)

theorem takeCharacter_popPort {w : Command} {a : CodePoint} {s t : State} (hoq : s.oq ≠ [])
    (h : takeCharacter w a s = .next t) : takeCharacter w a (popPort s) = .next (popPort t) := by
  unfold takeCharacter at h ⊢
  split_ifs at h with ha hl
  · cases h
    rw [if_pos ha, popPort_buf]
    exact congrArg _ (popPort_of_leavesOutput (g := raiseError .inputNotScalar w a _) (fun _ _ _ _ => rfl) s)
  · cases h
    rw [if_neg ha, if_pos (by simpa using hl)]
    exact congrArg _ (popPort_of_leavesOutput (g := fun u => { u with buf := u.buf ++ [a], nin := u.nin + 1 })
      (fun _ _ _ _ => rfl) s)
  · rw [if_neg ha, if_neg (by simpa using hl), popPort_buf]
    exact processBlock_popPort hoq (fun _ _ _ _ => rfl) h

theorem payloadError_popPort {w : Command} {s t : State} (h : payloadError w s = .next t) :
    payloadError w (popPort s) = .next (popPort t) := by
  cases h
  rw [payloadError, popPort_nin]
  exact congrArg _ (popPort_of_leavesOutput (g := raiseError .nonUtf8Payload w 0 _) (fun _ _ _ _ => rfl) s)

theorem endPayload_popPort {w : Command} {s t : State} (hoq : s.oq ≠ []) (h : endPayload w s = .next t) :
    endPayload w (popPort s) = .next (popPort t) := by
  unfold endPayload paddedBlock at h ⊢
  rw [popPort_buf, popPort_iv]
  split_ifs at h ⊢ with hbuf
  · cases h
    exact congrArg _ (popPort_of_leavesOutput (g := finishRun) (fun _ _ _ _ => rfl) s)
  · exact processBlock_popPort hoq (fun _ _ _ _ => rfl) h

/-- Settles O45: in RUN the loading commands raise SEQUENCE, and the rules of the others append to OQ or leave it. -/
theorem popsCommuteWithCommands : Obligations.PopsCommuteWithCommands := by
  intro i s t hp hoq hi h
  have hload : s.phase ≠ .load := by simp [hp]
  cases i with
  | nop =>
    cases h
    rfl
  | clear => exact absurd rfl hi
  | keyline | ivchar | startEnc | startDec => exact inPhase_popPort (fun hl => absurd hl hload) h
  | data a => exact inPhase_popPort (fun _ => takeCharacter_popPort hoq) h
  | dataerr => exact inPhase_popPort (fun _ => payloadError_popPort) h
  | endRun => exact inPhase_popPort (fun _ => endPayload_popPort hoq) h

/-! ### The output of a run -/

theorem runOutput_eq_some_iff {s : State} {out : List CodePoint} :
    runOutput s = some out ↔ s.runOk = true ∧ out = s.popped ++ s.oq := by
  unfold runOutput
  split_ifs with hok
  · simp [hok, eq_comm]
  · simp [hok]

theorem runOutput_of_not_ok {s : State} (hok : s.runOk = false) : runOutput s = none := by
  simp [runOutput, hok]

/-- A pop moves a character from the queue's head to the end of what was popped, so the output stays. -/
theorem runOutput_popPort (s : State) : runOutput (popPort s) = runOutput s := by
  rcases popPort_cases s with ⟨-, e⟩ | ⟨c, cs, hoq, e⟩ <;> rw [e]
  · rfl
  · simp [runOutput, hoq]

theorem runOutput_hostStep {s : State} {rest : List HostAction}
    (hhost : s.host = .pop :: rest ∨ ∃ n, s.host = .read n :: rest) : runOutput (hostStep s) = runOutput s := by
  rcases hhost with hhost | ⟨n, hhost⟩ <;> rw [hostStep, hhost]
  · exact runOutput_popPort { s with host := rest }
  · rfl

/-- A word sets RUN_OK on the way to DONE only. -/
theorem runOk_of_execWord {w : Command} {s t : State} (hs : s.runOk = false) (h : execWord w s = .next t)
    (ht : t.phase ≠ .done) : t.runOk = false := by
  rcases execWord_cases h with ⟨i, -, hi⟩ | ⟨_, -, e⟩
  · cases exec_cases hi with
    | clear => rfl
    | endEmpty | endPadded => exact absurd rfl ht
    | ignored | nop | raised | keyLine | ivChar | startEnc | startDec | buffered | block => exact hs
  · cases e
    unfold illegalCommand
    split_ifs <;> exact hs

theorem runOk_of_load_or_run {s : State} (inv : StateInv s) (hp : s.phase = .load ∨ s.phase = .run) :
    s.runOk = false := by
  rcases hp with hp | hp
  · obtain ⟨-, hok, -⟩ := inv.load hp
    exact hok
  · obtain ⟨-, hok, -⟩ := inv.running hp
    exact hok

/-- Settles O46: NOUT counts what the invariant says it counts, and without RUN_OK a run has no output. -/
theorem completedRunOutputHasNoutCharacters : Obligations.CompletedRunOutputHasNoutCharacters := by
  refine ⟨fun s out inv h => ?_, fun s t rest hhost hport h => ?_, fun s inv hp => ?_, fun w s t inv hp h ht => ?_⟩
  · obtain ⟨-, rfl⟩ := runOutput_eq_some_iff.1 h
    exact ⟨rfl, by rw [inv.nout_queue, List.length_append, count64]⟩
  · rw [step_eq_hostStep (.inl hport)] at h
    cases h
    exact runOutput_hostStep hhost
  · exact runOutput_of_not_ok (runOk_of_load_or_run inv hp)
  · have hdone : t.phase ≠ .done := by rcases ht with ht | ht <;> simp [ht]
    exact runOutput_of_not_ok (runOk_of_execWord (runOk_of_load_or_run inv (.inr hp)) h hdone)

/-! ### FB before START -/

/-- Two results that differ at most in FB, and not even there where a run has begun. -/
def AgreeButFb (r r' : Result) : Prop :=
  ∃ t t' : State, r = .next t ∧ r' = .next t' ∧ { t' with fb := t.fb } = t ∧ (t.phase = .run → t'.fb = t.fb)

section Feedback

variable {s : State} (f : List CodePoint)

theorem agreeButFb_raiseError (c : ErrorCode) (w : Command) (v : CodePoint) (p : BitVec 32) :
    AgreeButFb (.next (raiseError c w v p s)) (.next (raiseError c w v p { s with fb := f })) :=
  ⟨_, _, rfl, rfl, rfl, nofun⟩

theorem agreeButFb_beginRun (m : Mode) : AgreeButFb (.next (beginRun m s)) (.next (beginRun m { s with fb := f })) :=
  ⟨_, _, rfl, rfl, rfl, fun _ => rfl⟩

theorem agreeButFb_of_load (hp : s.phase = .load) : AgreeButFb (.next s) (.next { s with fb := f }) :=
  ⟨_, _, rfl, rfl, rfl, fun hrun => by simp [hp] at hrun⟩

theorem loadKeyLine_ignores_fb (hp : s.phase = .load) (w : Command) (ntok : BitVec 2) (s0 s1 : Bool) (a b : CodePoint) :
    AgreeButFb (loadKeyLine w ntok s0 s1 a b s) (loadKeyLine w ntok s0 s1 a b { s with fb := f }) := by
  unfold loadKeyLine
  split_ifs
  · exact agreeButFb_raiseError f _ w _ _
  · exact agreeButFb_raiseError f _ w _ _
  · exact agreeButFb_raiseError f _ w _ _
  · exact agreeButFb_raiseError f _ w _ _
  · exact agreeButFb_of_load (s := { s with fwd := tableInsert s.fwd a b }) f hp

theorem loadIvChar_ignores_fb (hp : s.phase = .load) (w : Command) (a : CodePoint) :
    AgreeButFb (loadIvChar w a s) (loadIvChar w a { s with fb := f }) := by
  unfold loadIvChar
  split_ifs
  · exact agreeButFb_raiseError f _ w _ _
  · exact agreeButFb_raiseError f _ w _ _
  · exact agreeButFb_of_load (s := { s with iv := s.iv ++ [a] }) f hp

theorem startEncRule_ignores_fb (w : Command) : AgreeButFb (startEncRule w s) (startEncRule w { s with fb := f }) := by
  unfold startEncRule
  split_ifs
  · exact agreeButFb_raiseError f _ w _ _
  · exact agreeButFb_beginRun f .enc

theorem startDecRule_ignores_fb (w : Command) : AgreeButFb (startDecRule w s) (startDecRule w { s with fb := f }) := by
  unfold startDecRule
  split_ifs
  · exact agreeButFb_raiseError f _ w _ _
  · dsimp only
    cases ambiguousValue s.fwd with
    | none => exact agreeButFb_beginRun f .dec
    | some v => exact agreeButFb_raiseError f _ w _ _

/-- The common checks read PHASE, and record it where they raise SEQUENCE. -/
theorem inPhase_ignores_fb (hp : s.phase = .load) {need : Phase} {w : Command} {rule : State → Result}
    (hrule : need = .load → AgreeButFb (rule s) (rule { s with fb := f })) :
    AgreeButFb (inPhase need w rule s) (inPhase need w rule { s with fb := f }) := by
  unfold inPhase
  split_ifs with herr hneed
  · exact agreeButFb_of_load f hp
  · exact hrule (hneed.symm.trans hp)
  · exact agreeButFb_raiseError f _ w _ _

end Feedback

/-- Settles O47: the rules of LOAD neither read nor write FB, but for START, which writes the IV into it. -/
theorem feedbackUnobservableBeforeStart : Obligations.FeedbackUnobservableBeforeStart := by
  intro i s f hp
  change AgreeButFb (exec i s) (exec i { s with fb := f })
  cases i with
  | nop => exact agreeButFb_of_load f hp
  | clear => exact ⟨_, _, rfl, rfl, rfl, fun _ => rfl⟩
  | keyline ntok s0 s1 a b => exact inPhase_ignores_fb f hp fun _ => loadKeyLine_ignores_fb f hp _ ntok s0 s1 a b
  | ivchar a => exact inPhase_ignores_fb f hp fun _ => loadIvChar_ignores_fb f hp _ a
  | startEnc => exact inPhase_ignores_fb f hp fun _ => startEncRule_ignores_fb f _
  | startDec => exact inPhase_ignores_fb f hp fun _ => startDecRule_ignores_fb f _
  | data | dataerr | endRun => exact inPhase_ignores_fb f hp nofun

end Sys2Proof.Machine
end

section
/-!
PROOFS. The invariant of reachable states (10_state.md section 5): every state with R240's values has it, each update that
a command or a host action makes keeps it, and a state that has it always steps.
-/

namespace Sys2Proof.Machine

/-! ### Lists of scalar values -/

@[simp] theorem allScalar_nil : AllScalar [] := List.forall_mem_nil _

@[simp] theorem allScalar_append {xs ys : List CodePoint} : AllScalar (xs ++ ys) ↔ AllScalar xs ∧ AllScalar ys :=
  List.forall_mem_append

@[simp] theorem allScalar_cons {x : CodePoint} {xs : List CodePoint} :
    AllScalar (x :: xs) ↔ isScalar x = true ∧ AllScalar xs := List.forall_mem_cons

theorem allScalar_replicate_nul (n : Nat) : AllScalar (List.replicate n nul) := fun _ hc =>
  List.eq_of_mem_replicate hc ▸ isScalar_nul

theorem allScalar_paddedBlock {s : State} (h : AllScalar s.buf) : AllScalar (paddedBlock s) :=
  allScalar_append.2 ⟨h, allScalar_replicate_nul _⟩

theorem count64_add (m n : Nat) : count64 (m + n) = count64 m + count64 n := BitVec.ofNat_add m n

/-! ### The reset state -/

/-- R240's values meet the invariant; FB, to which R240 gives none, need only hold scalar values. -/
theorem stateInv_of_atReset {s : State} (h : AtReset s) (hparams : s.params.WF) (hpopped : s.popped = [])
    (hfb : AllScalar s.fb) : StateInv s := by
  obtain ⟨hphase, hmode, hok, hiv, hfwd, hbuf, hoq, hnin, hnblk, hnout, hnpad, herr, hcmd, hval, hpos⟩ := h
  exact
    { params := hparams
      load := fun _ => ⟨hmode, hok, hbuf, hoq, hpopped, hnin, hnblk, hnout, hnpad⟩
      active := by simp [hphase]
      running := by simp [hphase]
      finished := by simp [hphase]
      error_iff := by simp [hphase, herr]
      error_code := by simp [herr]
      error_clear := fun _ => ⟨hcmd, hval, hpos⟩
      table_sorted := by simp [hfwd, TableSorted]
      table_room := by simp [hfwd]
      iv_room := by simp [hiv]
      queue_room := by simp [hoq]
      scalar_iv := by simp [hiv]
      scalar_keys := by simp [hfwd]
      scalar_values := by simp [hfwd]
      scalar_buf := by simp [hbuf]
      scalar_fb := hfb
      scalar_oq := by simp [hoq]
      inverse := by simp [hphase]
      nout_blocks := by simp [hnout, hnblk]
      nout_queue := by simp [hnout, hpopped, hoq, count64]
      pad_room := hnpad ▸ hparams.1 }

theorem params_vectors_wf : Params.vectors.WF := by simp [Params.WF, Params.vectors]

/-- Settles O49: the reset state of any legal parameters has R240's values, and the vectors' parameters are legal. -/
theorem resetStateMeetsInvariant : Obligations.ResetStateMeetsInvariant := by
  have hreset : ∀ p : Params, p.WF → StateInv (State.resetWith p) := fun p hp =>
    stateInv_of_atReset (resetWith_atReset p) hp rfl allScalar_nil
  exact ⟨hreset, hreset _ params_vectors_wf⟩

/-! ### What each update of a command keeps -/

section Updates

variable {s : State} (inv : StateInv s)
include inv

theorem err_eq_zero_of_phase (hp : s.phase ≠ .error) : s.err = 0 := by
  by_contra herr
  exact hp (inv.error_iff.2 herr)

theorem stateInv_ports (p : Option Command) (hs : List HostAction) (r : Reply) :
    StateInv { s with port := p, host := hs, reply := r } := { inv with }

theorem stateInv_clearUnit : StateInv (clearUnit s) :=
  stateInv_of_atReset (clearUnit_atReset s) inv.params rfl allScalar_nil

theorem stateInv_resetPort : StateInv (resetPort s) :=
  stateInv_of_atReset (resetPort_atReset s) inv.params rfl allScalar_nil

theorem stateInv_raiseError (c : ErrorCode) (w : Command) (v : CodePoint) (p : BitVec 32) :
    StateInv (raiseError c w v p s) :=
  { inv with
    load := by simp
    active := by simp
    running := by simp
    finished := by simp
    error_iff := by simpa using errorNumber_ne_zero c
    error_code := errorNumber_le c
    error_clear := fun h => absurd h (errorNumber_ne_zero c)
    inverse := by simp }

theorem stateInv_illegalCommand (w : Command) : StateInv (illegalCommand w s) := by
  unfold illegalCommand
  split_ifs
  · exact inv
  · exact stateInv_raiseError inv _ _ _ _

theorem tableInsert_length_le {a : CodePoint} (b : CodePoint)
    (hroom : tableLookup s.fwd a = none → s.fwd.length ≠ s.params.tmax) :
    (tableInsert s.fwd a b).length ≤ s.params.tmax := by
  have hle := inv.table_room
  rw [tableInsert_length inv.table_sorted]
  split_ifs with hnew
  · exact Nat.lt_of_le_of_ne hle (hroom hnew)
  · exact hle

/-- A new key or value in the table is a scalar value where KEYLINE checked it. -/
theorem stateInv_tableInsert {a b : CodePoint} (hp : s.phase = .load) (ha : isScalar a = true) (hb : isScalar b = true)
    (hroom : tableLookup s.fwd a = none → s.fwd.length ≠ s.params.tmax) :
    StateInv { s with fwd := tableInsert s.fwd a b } :=
  { inv with
    table_sorted := tableInsert_sorted inv.table_sorted a b
    table_room := tableInsert_length_le inv b hroom
    scalar_keys := fun c hc => by
      rcases (tableInsert_keys _ _ _ _).1 hc with rfl | hc
      · exact ha
      · exact inv.scalar_keys c hc
    scalar_values := fun c hc => by
      rcases tableInsert_values hc with rfl | hc
      · exact hb
      · exact inv.scalar_values c hc
    inverse := by simp [hp] }

/-- The IV grows in phase LOAD only, where NBLK and NOUT are 0. -/
theorem stateInv_ivAppend {a : CodePoint} (hp : s.phase = .load) (ha : isScalar a = true)
    (hroom : s.iv.length ≠ s.params.lmax) : StateInv { s with iv := s.iv ++ [a] } := by
  obtain ⟨-, -, -, -, -, -, hnblk, hnout, -⟩ := inv.load hp
  exact
    { inv with
      active := by simp [hp]
      running := by simp [hp]
      iv_room := by
        have hle := inv.iv_room
        simp only [List.length_append, List.length_singleton]
        omega
      scalar_iv := by simpa [ha] using inv.scalar_iv
      nout_blocks := by simp [hnblk, hnout] }

theorem stateInv_beginRun {m : Mode} (hp : s.phase = .load) (hiv : s.iv ≠ []) (hm : m = .dec → Injective s.fwd) :
    StateInv (beginRun m s) := by
  obtain ⟨-, hok, -, -, -, -, -, -, hnpad⟩ := inv.load hp
  have hpos : 0 < s.iv.length := List.length_pos_iff.2 hiv
  exact
    { inv with
      load := by simp
      active := fun _ => ⟨hpos, rfl⟩
      running := fun _ => ⟨hpos, hok, hnpad⟩
      finished := by simp
      error_iff := by simp [err_eq_zero_of_phase inv, hp]
      scalar_buf := allScalar_nil
      scalar_fb := inv.scalar_iv
      inverse := fun _ => hm }

theorem stateInv_bufAppend {a : CodePoint} (hp : s.phase = .run) (ha : isScalar a = true)
    (hl : s.buf.length + 1 < s.iv.length) : StateInv { s with buf := s.buf ++ [a], nin := s.nin + 1 } := by
  obtain ⟨-, hok, hnpad⟩ := inv.running hp
  exact
    { inv with
      load := by simp [hp]
      running := fun _ => ⟨by simpa using hl, hok, hnpad⟩
      finished := by simp [hp]
      scalar_buf := by simpa [ha] using inv.scalar_buf }

/-- A block that succeeds keeps the invariant where OQ has room for it: OQ, NOUT and NBLK grow together. -/
theorem stateInv_pushBlock {cur out nf : List CodePoint} (hp : s.phase = .run) (hcur : AllScalar cur)
    (hl : cur.length = s.iv.length) (hb : modeBlock s cur = .ok out nf)
    (hroom : ∀ d ∈ s.params.oqDepth, s.oq.length + s.iv.length ≤ d) : StateInv (pushBlock out nf s) := by
  obtain ⟨hpos, hf⟩ := inv.active (.inl hp)
  obtain ⟨hout, hnf⟩ := modeBlock_lengths hl hf hb
  obtain ⟨hsout, hsnf⟩ := modeBlock_scalar inv.scalar_values hcur hb
  exact
    { inv with
      load := by simp [hp]
      active := fun _ => ⟨hpos, hnf⟩
      queue_room := by simpa [hout] using hroom
      scalar_fb := hsnf
      scalar_oq := allScalar_append.2 ⟨inv.scalar_oq, hsout⟩
      nout_blocks := by
        rw [pushBlock_nout, inv.nout_blocks, pushBlock_iv, pushBlock_nblk]
        ring
      nout_queue := by
        rw [pushBlock_nout, inv.nout_queue, pushBlock_popped, pushBlock_oq, List.length_append, hout, ← Nat.add_assoc,
          count64_add _ s.iv.length] }

theorem stateInv_closeBlock (hp : s.phase = .run) : StateInv (closeBlock s) := by
  obtain ⟨-, hok, hnpad⟩ := inv.running hp
  obtain ⟨hpos, -⟩ := inv.active (.inl hp)
  exact
    { inv with
      load := by simp [hp]
      running := fun _ => ⟨hpos, hok, hnpad⟩
      finished := by simp [hp]
      scalar_buf := allScalar_nil }

/-- The end of a run, with a count of padding characters that LMAX bounds. -/
theorem stateInv_finishRun {n : Nat} (hp : s.phase = .run) (hn : n < s.params.lmax) :
    StateInv (finishRun { s with npad := n, buf := [] }) :=
  { inv with
    load := by simp
    active := fun _ => inv.active (.inl hp)
    running := by simp
    finished := fun _ => ⟨rfl, rfl⟩
    error_iff := by simp [err_eq_zero_of_phase inv, hp]
    scalar_buf := allScalar_nil
    inverse := fun _ => inv.inverse (.inl hp)
    pad_room := hn }

theorem stateInv_closePaddedBlock (hp : s.phase = .run) (hbuf : s.buf ≠ []) : StateInv (closePaddedBlock s) := by
  have hpos : 0 < s.buf.length := List.length_pos_iff.2 hbuf
  obtain ⟨hlt, -, -⟩ := inv.running hp
  have hle := inv.iv_room
  exact stateInv_finishRun inv hp (by omega)

end Updates

/-! ### What a command, a host action and a step keep -/

/-- A command that pushes a block and is not held has room for it in OQ. -/
theorem oq_has_room {i : Instr} {s : State} (hp : s.phase = .run) (hpush : pushesBlock (encode i) s = true)
    (hfree : isHeld (encode i) s = false) : ∀ d ∈ s.params.oqDepth, s.oq.length + s.iv.length ≤ d := by
  intro d hd
  by_contra hlt
  have hheld : isHeld (encode i) s = true :=
    (isHeld_iff _ _).2 ⟨hp, hpush, (lacksRoom_iff s).2 ⟨d, hd, Nat.lt_of_not_le hlt⟩⟩
  simp [hheld] at hfree

theorem pushesBlock_data {a : CodePoint} {s : State} (hl : s.buf.length + 1 = s.iv.length) :
    pushesBlock (encode (.data a)) s = true := by
  simp [pushesBlock, decode_encode, hl]

theorem pushesBlock_endRun {s : State} (hbuf : s.buf ≠ []) : pushesBlock (encode .endRun) s = true := by
  simpa [pushesBlock, decode_encode, List.length_pos_iff] using hbuf

theorem exec_keeps_invariant {i : Instr} {s t : State} (inv : StateInv s) (hfree : isHeld (encode i) s = false)
    (h : exec i s = .next t) : StateInv t := by
  cases exec_cases h with
  | ignored | nop => exact inv
  | clear => exact stateInv_clearUnit inv
  | raised _ _ _ c v p => exact stateInv_raiseError inv c _ v p
  | keyLine a b _ hp ha hb hroom => exact stateInv_tableInsert inv hp ha hb hroom
  | ivChar a _ hp ha hroom => exact stateInv_ivAppend inv hp ha hroom
  | startEnc _ hp hiv => exact stateInv_beginRun inv hp hiv (by simp)
  | startDec _ hp hiv hinj =>
    exact stateInv_beginRun inv hp hiv fun _ => (ambiguousValue_eq_none_iff inv.table_sorted).1 hinj
  | buffered a _ hp ha hl => exact stateInv_bufAppend inv hp ha hl
  | block a _ out nf hp ha hl hf hb =>
    have hcur : AllScalar (s.buf ++ [a]) := by simpa [ha] using inv.scalar_buf
    have hpush := stateInv_pushBlock inv hp hcur (by simpa using hl) hb (oq_has_room hp (pushesBlock_data hl) hfree)
    exact stateInv_closeBlock hpush hp
  | endEmpty _ hp hbuf =>
    have hfin := stateInv_finishRun inv hp inv.pad_room
    rwa [← hbuf] at hfin
  | endPadded _ out nf hp hbuf hl hf hb =>
    have hpush := stateInv_pushBlock inv hp (allScalar_paddedBlock inv.scalar_buf) hl hb
      (oq_has_room hp (pushesBlock_endRun hbuf) hfree)
    exact stateInv_closePaddedBlock hpush hp hbuf

/-- A pop moves one character from OQ to the popped ones, so their number stays NOUT. -/
theorem popPort_keeps_invariant {s : State} (inv : StateInv s) : StateInv (popPort s) := by
  rcases popPort_cases s with ⟨-, e⟩ | ⟨c, cs, hoq, e⟩ <;> rw [e]
  · exact stateInv_ports inv _ _ _
  · have hload : s.phase ≠ .load := fun hp => by
      obtain ⟨-, -, -, hempty, -⟩ := inv.load hp
      simp [hoq] at hempty
    have hlen : (s.popped ++ [c]).length + cs.length = s.popped.length + s.oq.length := by
      rw [hoq, List.length_append, List.length_singleton, List.length_cons]
      omega
    exact
      { inv with
        load := fun hp => absurd hp hload
        queue_room := fun d hd => by
          have hle := inv.queue_room d hd
          rw [hoq, List.length_cons] at hle
          exact Nat.le_of_succ_le hle
        scalar_oq := fun x hx => inv.scalar_oq x (hoq ▸ List.mem_cons_of_mem c hx)
        nout_queue := inv.nout_queue.trans (congrArg count64 hlen.symm) }

theorem hostStep_keeps_invariant {s : State} (inv : StateInv s) : StateInv (hostStep s) := by
  rcases hostStep_cases s with e | ⟨w, rest, -, -, e⟩ | ⟨n, rest, -, e⟩ | ⟨rest, -, e⟩ | ⟨rest, -, e⟩ <;> rw [e]
  · exact inv
  · exact stateInv_ports inv _ _ _
  · exact stateInv_ports inv _ _ _
  · exact popPort_keeps_invariant (stateInv_ports inv s.port rest s.reply)
  · exact stateInv_resetPort (stateInv_ports inv s.port rest s.reply)

/-- Settles O50: a step is the execution of a word that is not held, or a host action, and both keep the invariant. -/
theorem everyStepKeepsInvariant : Obligations.EveryStepKeepsInvariant := by
  intro s t inv h
  rcases step_cases h with ⟨w, -, hfree, hx⟩ | ⟨-, e⟩
  · have inv' := stateInv_ports inv none s.host .nothing
    rcases execWord_cases hx with ⟨i, hd, hi⟩ | ⟨_, -, e⟩
    · rw [← encode_of_decode hd] at hfree
      exact exec_keeps_invariant inv' hfree hi
    · cases e
      exact stateInv_illegalCommand inv' w
  · cases e
    exact hostStep_keeps_invariant inv

/-! ### A state with the invariant steps -/

theorem processBlock_answers {s : State} {cur : List CodePoint} (w : Command) (after : State → State)
    (hc : cur.length = s.iv.length) (hf : s.fb.length = s.iv.length)
    (hd : s.mode = .dec → TableSorted s.fwd ∧ Injective s.fwd) : ∃ t, processBlock w cur after s = .next t := by
  cases hb : modeBlock s cur with
  | ok out nf => exact ⟨_, processBlock_of_modeBlock_ok w after hc hf hd hb⟩
  | fail x lane => exact ⟨_, processBlock_of_modeBlock_fail w after hc hf hd hb⟩
  | undefined f => exact absurd hb (modeBlock_ne_undefined s cur f)

theorem inPhase_answers {need : Phase} {w : Command} {rule : State → Result} {s : State}
    (h : s.phase = need → ∃ t, rule s = .next t) : ∃ t, inPhase need w rule s = .next t := by
  unfold inPhase
  split_ifs with herr hneed
  · exact ⟨_, rfl⟩
  · exact h hneed
  · exact ⟨_, rfl⟩

theorem loadKeyLine_answers (w : Command) (ntok : BitVec 2) (s0 s1 : Bool) (a b : CodePoint) (s : State) :
    ∃ t, loadKeyLine w ntok s0 s1 a b s = .next t := by
  unfold loadKeyLine
  split_ifs <;> exact ⟨_, rfl⟩

theorem loadIvChar_answers (w : Command) (a : CodePoint) (s : State) : ∃ t, loadIvChar w a s = .next t := by
  unfold loadIvChar
  split_ifs <;> exact ⟨_, rfl⟩

theorem startEncRule_answers (w : Command) (s : State) : ∃ t, startEncRule w s = .next t := by
  unfold startEncRule
  split_ifs <;> exact ⟨_, rfl⟩

theorem startDecRule_answers (w : Command) (s : State) : ∃ t, startDecRule w s = .next t := by
  unfold startDecRule
  split_ifs
  · exact ⟨_, rfl⟩
  · cases ambiguousValue s.fwd <;> exact ⟨_, rfl⟩

/-- The conditions ProcessBlock sets on the state hold in phase RUN (R29, R162; R26 for a decryption). -/
theorem blockConditions_of_run {s : State} (inv : StateInv s) (hp : s.phase = .run) :
    s.buf.length < s.iv.length ∧ s.fb.length = s.iv.length ∧ (s.mode = .dec → TableSorted s.fwd ∧ Injective s.fwd) := by
  obtain ⟨hlt, -, -⟩ := inv.running hp
  obtain ⟨-, hf⟩ := inv.active (.inl hp)
  exact ⟨hlt, hf, fun hm => ⟨inv.table_sorted, inv.inverse (.inl hp) hm⟩⟩

theorem takeCharacter_answers {s : State} (inv : StateInv s) (hp : s.phase = .run) (w : Command) (a : CodePoint) :
    ∃ t, takeCharacter w a s = .next t := by
  obtain ⟨hlt, hf, hd⟩ := blockConditions_of_run inv hp
  unfold takeCharacter
  split_ifs with ha hl
  · exact ⟨_, rfl⟩
  · exact ⟨_, rfl⟩
  · have hc : (s.buf ++ [a]).length = s.iv.length := by
      rw [List.length_append, List.length_singleton]
      omega
    exact processBlock_answers w closeBlock hc hf hd

theorem endPayload_answers {s : State} (inv : StateInv s) (hp : s.phase = .run) (w : Command) :
    ∃ t, endPayload w s = .next t := by
  obtain ⟨hlt, hf, hd⟩ := blockConditions_of_run inv hp
  unfold endPayload
  split_ifs with hbuf
  · exact ⟨_, rfl⟩
  · exact processBlock_answers w closePaddedBlock (paddedBlock_length hlt.le) hf hd

theorem exec_answers {s : State} (inv : StateInv s) (i : Instr) : ∃ t, exec i s = .next t := by
  cases i with
  | nop => exact ⟨s, rfl⟩
  | clear => exact ⟨clearUnit s, rfl⟩
  | keyline ntok s0 s1 a b => exact inPhase_answers fun _ => loadKeyLine_answers _ ntok s0 s1 a b s
  | ivchar a => exact inPhase_answers fun _ => loadIvChar_answers _ a s
  | startEnc => exact inPhase_answers fun _ => startEncRule_answers _ s
  | startDec => exact inPhase_answers fun _ => startDecRule_answers _ s
  | data a => exact inPhase_answers fun hp => takeCharacter_answers inv hp _ a
  | dataerr => exact inPhase_answers fun _ => ⟨_, rfl⟩
  | endRun => exact inPhase_answers fun hp => endPayload_answers inv hp _

theorem execWord_answers {s : State} (inv : StateInv s) (w : Command) : ∃ t, execWord w s = .next t := by
  cases hd : decode w with
  | ok i =>
    rw [execWord_of_decode hd]
    exact exec_answers inv i
  | error e => exact ⟨illegalCommand w s, execWord_of_error_decode hd s⟩

/-- Settles O51: under the invariant every word is executed to a next state, and a host action always answers one. -/
theorem invariantStatesNeverStop : Obligations.InvariantStatesNeverStop := by
  intro s inv
  rcases step_cases (rfl : step s = step s) with ⟨w, -, -, hx⟩ | ⟨-, e⟩
  · rw [← hx]
    exact execWord_answers (stateInv_ports inv none s.host .nothing) w
  · exact ⟨hostStep s, e⟩

end Sys2Proof.Machine
end

section
/-!
PROOFS. The laws of the block functions (42_chain_cipher.md R163, R164, R172): the lanes of a block are independent, ASCII
stays ASCII, and Sub and Unsub undo each other for a table that permutes its keys.
-/

namespace Sys2Proof.Machine

/-! ### Independent lanes -/

theorem encXors_getElem?_congr {fb fb' cur cur' : List CodePoint} {i : Nat} (hfb : fb[i]? = fb'[i]?)
    (hcur : cur[i]? = cur'[i]?) : (encXors fb cur)[i]? = (encXors fb' cur')[i]? := by
  rw [encXors, encXors, List.getElem?_zipWith, List.getElem?_zipWith, hfb, hcur]

/-- Settles O20: an output lane is a function of the same lane of FB and of the input. -/
theorem lanesAreIndependent : Obligations.LanesAreIndependent := by
  intro t fb fb' cur cur' out out' nf nf' i _ _ hfb hcur
  refine ⟨fun h h' => ?_, fun h h' => ?_⟩
  · obtain ⟨-, rfl, -⟩ := (encBlock_ok_iff _ _ _ _ _).1 h
    obtain ⟨-, rfl, -⟩ := (encBlock_ok_iff _ _ _ _ _).1 h'
    rw [List.getElem?_map, List.getElem?_map, encXors_getElem?_congr hfb hcur]
  · obtain ⟨-, rfl, -⟩ := (decBlock_ok_iff _ _ _ _ _).1 h
    obtain ⟨-, rfl, -⟩ := (decBlock_ok_iff _ _ _ _ _).1 h'
    rw [decXors_eq_encXors, decXors_eq_encXors]
    exact encXors_getElem?_congr hfb (by rw [List.getElem?_map, List.getElem?_map, hcur])

/-! ### ASCII blocks -/

theorem xor_ascii {c d : CodePoint} (hc : c < 0x80#21) (hd : d < 0x80#21) : c ^^^ d < 0x80#21 := by
  rw [BitVec.lt_def, BitVec.toNat_xor]
  exact Nat.xor_lt_two_pow (n := 7) hc hd

theorem isScalar_of_ascii {c : CodePoint} (hc : c < 0x80#21) : isScalar c = true := by
  have hle : c ≤ 0x10FFFF#21 := by bv_omega
  have hlt : ¬ 0xD800#21 ≤ c := by bv_omega
  simp [isScalar, hle, hlt]

theorem allScalar_of_ascii {cs : List CodePoint} (h : AllAscii cs) : AllScalar cs := fun c hc =>
  isScalar_of_ascii (h c hc)

theorem encXors_ascii {fb cur : List CodePoint} (hfb : AllAscii fb) (hcur : AllAscii cur) :
    AllAscii (encXors fb cur) := by
  intro c hc
  obtain ⟨i, hi, rfl⟩ := List.getElem_of_mem hc
  rw [encXors_getElem]
  exact xor_ascii (hfb _ (List.getElem_mem _)) (hcur _ (List.getElem_mem _))

theorem allAscii_map {f : CodePoint → CodePoint} (hf : ∀ c, c < 0x80#21 → f c < 0x80#21) {cs : List CodePoint}
    (h : AllAscii cs) : AllAscii (cs.map f) := by
  intro c hc
  obtain ⟨d, hd, rfl⟩ := List.mem_map.1 hc
  exact hf d (h d hd)

/-- Sub answers a value of the table or its argument. -/
theorem substitute_ascii {t : Table} (hs : TableSorted t) (ht : AllAscii (t.map Prod.snd)) {c : CodePoint}
    (hc : c < 0x80#21) : substitute t c < 0x80#21 := by
  unfold substitute
  cases hv : tableLookup t c with
  | none => exact hc
  | some v => exact ht v (List.mem_map.2 ⟨_, (tableLookup_eq_some_iff hs c v).1 hv, rfl⟩)

/-- Unsub answers a key of the table or its argument. -/
theorem unsubstitute_ascii {t : Table} (ht : AllAscii (t.map Prod.fst)) {c : CodePoint} (hc : c < 0x80#21) :
    unsubstitute t c < 0x80#21 := by
  unfold unsubstitute
  cases hk : tableInverse t c with
  | none => exact hc
  | some k => exact ht k (List.mem_map.2 ⟨_, tableInverse_mem hk, rfl⟩)

/-- Settles O21: the XOR results are ASCII in both modes, so no lane fails, and Sub keeps them ASCII. -/
theorem asciiBlocksNeverFail : Obligations.AsciiBlocksNeverFail := by
  intro s cur hs _ hfb hcur hkeys hvalues
  cases hm : s.mode with
  | enc =>
    have hx := encXors_ascii hfb hcur
    have hout := allAscii_map (fun _ => substitute_ascii hs hvalues) hx
    refine ⟨_, _, ?_, hout, hout⟩
    rw [modeBlock, hm]
    exact (encBlock_ok_iff _ _ _ _ _).2 ⟨allScalar_of_ascii hx, rfl, rfl⟩
  | dec =>
    have hx := encXors_ascii hfb (allAscii_map (fun _ => unsubstitute_ascii hkeys) hcur)
    refine ⟨_, _, ?_, hx, hcur⟩
    rw [modeBlock, hm]
    exact (decBlock_ok_iff _ _ _ _ _).2 ⟨allScalar_of_ascii hx, rfl, rfl⟩

/-! ### Tables that permute their keys (R172) -/

theorem keys_nodup {t : Table} (hs : TableSorted t) : (t.map Prod.fst).Nodup := hs.imp BitVec.ne_of_lt

theorem values_nodup {t : Table} (hs : TableSorted t) (hi : Injective t) : (t.map Prod.snd).Nodup := by
  refine List.Nodup.map_on (fun p hp q hq hpq => ?_) (List.Nodup.of_map _ (keys_nodup hs))
  have hkey : p.1 = q.1 := hi p.1 q.1 p.2 ((tableLookup_eq_some_iff hs _ _).2 hp)
    ((tableLookup_eq_some_iff hs _ _).2 (hpq ▸ hq))
  exact Prod.ext hkey hpq

/-- In a table that permutes its keys the values are the keys: they are among them, and there are as many. -/
theorem values_perm_keys {t : Table} (hs : TableSorted t) (hp : PermutesItsKeys t) :
    (t.map Prod.snd).Perm (t.map Prod.fst) := by
  obtain ⟨hi, hkey⟩ := hp
  have hsub : t.map Prod.snd ⊆ t.map Prod.fst := by
    intro v hv
    obtain ⟨p, hmem, rfl⟩ := List.mem_map.1 hv
    by_contra hno
    have hsome := hkey p.1 p.2 ((tableLookup_eq_some_iff hs _ _).2 hmem)
    simp [(tableLookup_eq_none_iff t p.2).2 hno] at hsome
  exact ((values_nodup hs hi).subperm hsub).perm_of_length_le (by simp)

theorem tableInverse_eq_none_iff_lookup {t : Table} (hs : TableSorted t) (hp : PermutesItsKeys t) (c : CodePoint) :
    tableInverse t c = none ↔ tableLookup t c = none := by
  rw [tableInverse_eq_none_iff, tableLookup_eq_none_iff, (values_perm_keys hs hp).mem_iff]

theorem unsubstitute_substitute {t : Table} (hs : TableSorted t) (hp : PermutesItsKeys t) (c : CodePoint) :
    unsubstitute t (substitute t c) = c := by
  have hi : Injective t := hp.left
  cases hv : tableLookup t c with
  | none =>
    have hno := (tableInverse_eq_none_iff_lookup hs hp c).2 hv
    simp [substitute, unsubstitute, hv, hno]
  | some v =>
    have hk := (tableInverse_eq_some_iff hs hi v c).2 hv
    simp [substitute, unsubstitute, hv, hk]

theorem substitute_unsubstitute {t : Table} (hs : TableSorted t) (hp : PermutesItsKeys t) (c : CodePoint) :
    substitute t (unsubstitute t c) = c := by
  have hi : Injective t := hp.left
  cases hk : tableInverse t c with
  | none =>
    have hno := (tableInverse_eq_none_iff_lookup hs hp c).1 hk
    simp [substitute, unsubstitute, hk, hno]
  | some k =>
    have hv := (tableInverse_eq_some_iff hs hi c k).1 hk
    simp [substitute, unsubstitute, hk, hv]

/-- A value that is no key shares its image under Sub with the key it belongs to. -/
theorem substitute_of_value_no_key {t : Table} {k v : CodePoint} (hs : TableSorted t) (hi : Injective t)
    (hk : tableLookup t k = some v) (hv : tableLookup t v = none) :
    k ≠ v ∧ substitute t k = v ∧ substitute t v = v ∧ unsubstitute t v = k := by
  refine ⟨?_, by simp [substitute, hk], by simp [substitute, hv],
    by simp [unsubstitute, (tableInverse_eq_some_iff hs hi v k).2 hk]⟩
  rintro rfl
  simp [hv] at hk

end Sys2Proof.Machine
end

section
/-!
PROOFS. Whole runs (42_chain_cipher.md R174; 41_segmentation_padding.md R130, R131, R140, R141): the blocks of a payload one
after another, what the payload commands answer from any state of a run against the reference chain, and decryption as the
inverse of encryption (R172).
-/

namespace Sys2Proof.Machine

/-! ### The blocks of a payload -/

/-- The blocks a payload is processed in: the segments of the padded text (R130, R131). -/
def payloadBlocks (t : List CodePoint) (l : Nat) : List (List CodePoint) := segmentText (padText t l) l

theorem padText_nil (l : Nat) : padText [] l = [] := by simp [padText]

theorem padText_partial {t : List CodePoint} {l : Nat} (ht : t ≠ []) (hl : t.length < l) :
    padText t l = t ++ List.replicate (l - t.length) nul := by
  have hpos : t.length ≠ 0 := List.length_pos_iff.2 ht |>.ne'
  rw [padText, Nat.mod_eq_of_lt hl, if_neg hpos]

/-- Whole blocks at the front are not padded. -/
theorem padText_append {b : List CodePoint} (t : List CodePoint) {l : Nat} (hb : b.length = l) :
    padText (b ++ t) l = b ++ padText t l := by
  have hmod : (b ++ t).length % l = t.length % l := by rw [List.length_append, hb, Nat.add_mod_left]
  rw [padText, padText, hmod]
  split_ifs
  · rfl
  · rw [List.append_assoc]

theorem segmentText_nil (l : Nat) : segmentText [] l = [] := by simp [segmentText]

theorem segmentText_append {b : List CodePoint} (t : List CodePoint) {l : Nat} (hl : 0 < l) (hb : b.length = l) :
    segmentText (b ++ t) l = b :: segmentText t l := by
  have hcount : (b ++ t).length / l = t.length / l + 1 := by rw [List.length_append, hb, Nat.add_div_left _ hl]
  have hhead : ((b ++ t).drop (0 * l)).take l = b := by rw [Nat.zero_mul, List.drop_zero, List.take_left' hb]
  have htail : ∀ k, ((b ++ t).drop ((k + 1) * l)).take l = (t.drop (k * l)).take l := by
    intro k
    rw [Nat.succ_mul, Nat.add_comm, ← List.drop_drop, List.drop_left' hb]
  simp only [segmentText, hcount, List.range_succ_eq_map, List.map_cons, List.map_map, hhead, Function.comp_def, htail]

theorem payloadBlocks_nil (l : Nat) : payloadBlocks [] l = [] := by
  rw [payloadBlocks, padText_nil, segmentText_nil]

theorem payloadBlocks_append {b : List CodePoint} (t : List CodePoint) {l : Nat} (hl : 0 < l) (hb : b.length = l) :
    payloadBlocks (b ++ t) l = b :: payloadBlocks t l := by
  rw [payloadBlocks, padText_append t hb, segmentText_append _ hl hb, payloadBlocks]

theorem payloadBlocks_partial {t : List CodePoint} {l : Nat} (ht : t ≠ []) (hl : t.length < l) :
    payloadBlocks t l = [t ++ List.replicate (l - t.length) nul] := by
  have hlen : (t ++ List.replicate (l - t.length) nul).length = l := by
    rw [List.length_append, List.length_replicate, Nat.add_sub_cancel' hl.le]
  have hone := segmentText_append [] (Nat.zero_lt_of_lt hl) hlen
  rw [List.append_nil, segmentText_nil] at hone
  rw [payloadBlocks, padText_partial ht hl, hone]

/-- A text is empty, or a partial block, or a whole block before a shorter text. -/
theorem text_induction {l : Nat} (hl : 0 < l) {P : List CodePoint → Prop} (empty : P [])
    (partialBlock : ∀ t, t ≠ [] → t.length < l → P t) (block : ∀ b t, b.length = l → P t → P (b ++ t))
    (t : List CodePoint) : P t := by
  by_cases hlt : t.length < l
  · by_cases ht : t = []
    · exact ht ▸ empty
    · exact partialBlock t ht hlt
  · have hb : (t.take l).length = l := List.length_take_of_le (Nat.le_of_not_lt hlt)
    have hrest := text_induction hl empty partialBlock block (t.drop l)
    rw [← List.take_append_drop l t]
    exact block _ _ hb hrest
termination_by t.length
decreasing_by
  rw [List.length_drop]
  omega

theorem payloadBlocks_flatten {l : Nat} (hl : 0 < l) (t : List CodePoint) :
    (payloadBlocks t l).flatten = padText t l := by
  induction t using text_induction hl with
  | empty => rw [payloadBlocks_nil, padText_nil, List.flatten_nil]
  | partialBlock t ht hlt =>
    rw [payloadBlocks_partial ht hlt, padText_partial ht hlt, List.flatten_cons, List.flatten_nil, List.append_nil]
  | block b t hb ih => rw [payloadBlocks_append t hl hb, padText_append t hb, List.flatten_cons, ih]

/-- The blocks of a payload of scalar values hold L scalar values each, NUL being one. -/
theorem payloadBlocks_wf {l : Nat} (hl : 0 < l) (t : List CodePoint) (ht : AllScalar t) :
    ∀ b ∈ payloadBlocks t l, b.length = l ∧ AllScalar b := by
  induction t using text_induction hl with
  | empty =>
    rw [payloadBlocks_nil]
    exact List.forall_mem_nil _
  | partialBlock t hne hlt =>
    rw [payloadBlocks_partial hne hlt, List.forall_mem_singleton, List.length_append, List.length_replicate]
    exact ⟨Nat.add_sub_cancel' hlt.le, allScalar_append.2 ⟨ht, allScalar_replicate_nul _⟩⟩
  | block b t hb ih =>
    obtain ⟨hsb, hst⟩ := allScalar_append.1 ht
    rw [payloadBlocks_append t hl hb, List.forall_mem_cons]
    exact ⟨⟨hb, hsb⟩, ih hst⟩

/-! ### The reference chain of a mode -/

/-- The reference function of each mode (R174). -/
def modeChain (m : Mode) (t : Table) (fb : List CodePoint) (blocks : List (List CodePoint)) : Option (List CodePoint) :=
  match m with
  | .enc => encryptChain t fb blocks
  | .dec => decryptChain t fb blocks

theorem all_isScalar_iff {xs : List CodePoint} : xs.all isScalar = true ↔ AllScalar xs := List.all_eq_true

theorem encryptChain_cons (t : Table) (fb b : List CodePoint) (bs : List (List CodePoint)) :
    encryptChain t fb (b :: bs) =
      if (encXors fb b).all isScalar then
        (encryptChain t ((encXors fb b).map (substitute t)) bs).map fun rest =>
          (encXors fb b).map (substitute t) ++ rest
      else none := rfl

theorem decryptChain_cons (t : Table) (fb b : List CodePoint) (bs : List (List CodePoint)) :
    decryptChain t fb (b :: bs) =
      if (decXors t fb b).all isScalar then (decryptChain t b bs).map fun rest => decXors t fb b ++ rest else none := rfl

theorem modeChain_nil (m : Mode) (t : Table) (fb : List CodePoint) : modeChain m t fb [] = some [] := by
  cases m <;> rfl

/-- A block that succeeds is the chain's first block, and its new feedback is the chain's next. -/
theorem modeChain_cons_ok {s : State} {b out nf : List CodePoint} (bs : List (List CodePoint))
    (hb : modeBlock s b = .ok out nf) :
    modeChain s.mode s.fwd s.fb (b :: bs) = (modeChain s.mode s.fwd nf bs).map fun rest => out ++ rest := by
  unfold modeBlock at hb
  unfold modeChain
  cases hm : s.mode with
  | enc =>
    rw [hm] at hb
    obtain ⟨hx, rfl, rfl⟩ := (encBlock_ok_iff _ _ _ _ _).1 hb
    exact if_pos (all_isScalar_iff.2 hx)
  | dec =>
    rw [hm] at hb
    obtain ⟨hx, rfl, rfl⟩ := (decBlock_ok_iff _ _ _ _ _).1 hb
    exact if_pos (all_isScalar_iff.2 hx)

theorem not_allScalar_of_firstFailure {xs : List CodePoint} {n : Nat} {r : CodePoint × Nat}
    (h : firstFailure xs n = some r) : ¬ xs.all isScalar = true := by
  rw [all_isScalar_iff, ← firstFailure_eq_none_iff xs n, h]
  exact Option.some_ne_none r

theorem modeChain_cons_fail {s : State} {b : List CodePoint} {x : CodePoint} {lane : Nat} (bs : List (List CodePoint))
    (hb : modeBlock s b = .fail x lane) : modeChain s.mode s.fwd s.fb (b :: bs) = none := by
  unfold modeBlock at hb
  unfold modeChain
  cases hm : s.mode with
  | enc =>
    rw [hm] at hb
    exact if_neg (not_allScalar_of_firstFailure ((encBlock_fail_iff _ _ _ _ _).1 hb))
  | dec =>
    rw [hm] at hb
    exact if_neg (not_allScalar_of_firstFailure ((decBlock_fail_iff _ _ _ _ _).1 hb))

/-! ### Sequences of commands -/

theorem execAll_cons {i : Instr} {s t : State} (is : List Instr) (h : exec i s = .next t) :
    execAll (i :: is) s = execAll is t := by
  rw [execAll, h]

theorem execAll_append {is : List Instr} {s t : State} (js : List Instr) (h : execAll is s = .next t) :
    execAll (is ++ js) s = execAll js t := by
  induction is generalizing s with
  | nil =>
    cases h
    rfl
  | cons i is ih =>
    rw [execAll] at h
    cases hx : exec i s with
    | next u =>
      rw [hx] at h
      rw [List.cons_append, execAll_cons _ hx]
      exact ih h
    | fault f =>
      rw [hx] at h
      cases h
    | refused r =>
      rw [hx] at h
      cases h

/-- Once in phase ERROR a run without CLEAR stays as it is (60_exceptions.md R214). -/
theorem execAll_of_error {is : List Instr} {s : State} (hp : s.phase = .error) (hclear : .clear ∉ is) :
    execAll is s = .next s := by
  induction is with
  | nil => rfl
  | cons i is ih =>
    rw [List.mem_cons, not_or] at hclear
    obtain ⟨hi, his⟩ := hclear
    rw [execAll_cons is (exec_of_error hp (Ne.symm hi)), ih his]

/-- The commands of a run after START: DATA for each character, and END. -/
def payloadCommands (p : List CodePoint) : List Instr := p.map .data ++ [.endRun]

theorem clear_not_mem_payloadCommands (p : List CodePoint) : .clear ∉ payloadCommands p := by simp [payloadCommands]

/-! ### A run from any of its states -/

/-- What a run's states have in common as far as its commands read them: the conditions of ProcessBlock (R162), room in BUF,
and no padding yet. The bound of OQ is not among them, because `exec` does not test the hold (log 3). -/
structure Running (s : State) : Prop where
  phase : s.phase = .run
  room : s.buf.length < s.iv.length
  feedback : s.fb.length = s.iv.length
  inverse : s.mode = .dec → TableSorted s.fwd ∧ Injective s.fwd
  unpadded : s.npad = 0

/-- The end of a run from `s` with the payload `p` still to come and the output `out` from there on, BUF's characters coming
before `p` in the text. -/
structure RunEnds (s : State) (p out : List CodePoint) (t : State) : Prop where
  phase : t.phase = .done
  ok : t.runOk = true
  oq : t.oq = s.oq ++ out
  nin : t.nin = s.nin + count64 p.length
  npad : t.npad = (s.iv.length - (s.buf ++ p).length % s.iv.length) % s.iv.length
  nblk : t.nblk = s.nblk + count64 ((padText (s.buf ++ p) s.iv.length).length / s.iv.length)
  nout : t.nout = s.nout + count64 (padText (s.buf ++ p) s.iv.length).length
  out_length : out.length = (padText (s.buf ++ p) s.iv.length).length

/-- What the rest of a run answers where the reference chain answers `o`: the end of the run, or RESULT_NOT_SCALAR. -/
inductive RunAnswers (s : State) (p : List CodePoint) : Option (List CodePoint) → Result → Prop
  | completed (out : List CodePoint) (t : State) (hends : RunEnds s p out t) : RunAnswers s p (some out) (.next t)
  | failed (t : State) (hphase : t.phase = .error) (herr : t.err = 5) (hok : t.runOk = s.runOk) :
      RunAnswers s p none (.next t)

/-- A failing block ends the run at once, whatever commands come after it. -/
theorem runAnswers_of_failed_block {s : State} (p q : List CodePoint) (w : Command) (x : CodePoint) (pos : BitVec 32) :
    RunAnswers s p none (execAll (payloadCommands q) (errorAt s 5 w x pos)) := by
  rw [execAll_of_error rfl (clear_not_mem_payloadCommands q)]
  exact .failed _ rfl rfl rfl

/-- END without a partial block: the text is at its end. -/
theorem runEnds_of_empty {s : State} (hs : Running s) (hbuf : s.buf = []) : RunEnds s [] [] (finishRun s) where
  phase := rfl
  ok := rfl
  oq := by simp
  nin := by simp [count64]
  npad := by simp [hbuf, hs.unpadded]
  nblk := by simp [hbuf, padText_nil, count64]
  nout := by simp [hbuf, padText_nil, count64]
  out_length := by simp [hbuf, padText_nil]

/-- END with a partial block: one more block, the padded one. -/
theorem runEnds_of_partial {s : State} (hs : Running s) (hbuf : s.buf ≠ []) {out nf : List CodePoint}
    (hout : out.length = s.iv.length) : RunEnds s [] out (closePaddedBlock (pushBlock out nf s)) := by
  have hpos : 0 < s.buf.length := List.length_pos_iff.2 hbuf
  have hroom := hs.room
  have hpad : (padText (s.buf ++ []) s.iv.length).length = s.iv.length := by
    rw [List.append_nil, padText_partial hbuf hroom, List.length_append, List.length_replicate,
      Nat.add_sub_cancel' hroom.le]
  have hone : s.iv.length / s.iv.length = 1 := Nat.div_self (by omega)
  exact
    { phase := rfl
      ok := rfl
      oq := rfl
      nin := by simp [count64]
      npad := by
        rw [List.append_nil, Nat.mod_eq_of_lt hroom, Nat.mod_eq_of_lt (by omega)]
        rfl
      nblk := by
        rw [hpad, hone]
        rfl
      nout := by
        rw [hpad]
        rfl
      out_length := hout.trans hpad.symm }

/-- A buffered character only moves from the payload into BUF. -/
theorem runAnswers_of_buffered {s : State} {a : CodePoint} {p : List CodePoint} {o : Option (List CodePoint)} {r : Result}
    (h : RunAnswers { s with buf := s.buf ++ [a], nin := s.nin + 1 } p o r) : RunAnswers s (a :: p) o r := by
  have htext : (s.buf ++ [a]) ++ p = s.buf ++ a :: p := List.append_cons _ _ _ |>.symm
  cases h with
  | failed t hphase herr hok => exact .failed t hphase herr hok
  | completed out t hends =>
    obtain ⟨hphase, hok, hoq, hnin, hnpad, hnblk, hnout, hlen⟩ := hends
    dsimp only at hoq hnin hnpad hnblk hnout hlen
    rw [htext] at hnpad hnblk hnout hlen
    refine .completed out t ⟨hphase, hok, hoq, ?_, hnpad, hnblk, hnout, hlen⟩
    rw [hnin, List.length_cons, Nat.add_comm, count64_add, BitVec.add_assoc]
    rfl

/-- A block that succeeds puts its output in front of the rest of the run's. -/
theorem runAnswers_of_block {s : State} {a : CodePoint} {p out nf : List CodePoint} {o : Option (List CodePoint)}
    {r : Result} (hfull : (s.buf ++ [a]).length = s.iv.length) (hout : out.length = s.iv.length)
    (h : RunAnswers (closeBlock (pushBlock out nf s)) p o r) :
    RunAnswers s (a :: p) (o.map fun rest => out ++ rest) r := by
  have hl : 0 < s.iv.length := by
    rw [← hfull, List.length_append]
    exact Nat.succ_pos _
  have htext : s.buf ++ a :: p = (s.buf ++ [a]) ++ p := List.append_cons _ _ _
  have hpad : (padText (s.buf ++ a :: p) s.iv.length).length = s.iv.length + (padText p s.iv.length).length := by
    rw [htext, padText_append p hfull, List.length_append, hfull]
  cases h with
  | failed t hphase herr hok => exact .failed t hphase herr hok
  | completed rest t hends =>
    obtain ⟨hphase, hok, hoq, hnin, hnpad, hnblk, hnout, hlen⟩ := hends
    simp only [closeBlock_oq, closeBlock_nin, closeBlock_buf, closeBlock_iv, closeBlock_nblk, closeBlock_nout, pushBlock_oq,
      pushBlock_nin, pushBlock_iv, pushBlock_nblk, pushBlock_nout, List.nil_append] at hoq hnin hnpad hnblk hnout hlen
    refine .completed (out ++ rest) t ⟨hphase, hok, ?_, ?_, ?_, ?_, ?_, ?_⟩
    · rw [hoq, List.append_assoc]
    · rw [hnin, List.length_cons, Nat.add_comm, count64_add, BitVec.add_assoc]
      rfl
    · rw [hnpad, htext, List.length_append, hfull, Nat.add_mod_left]
    · rw [hnblk, hpad, Nat.add_div_left _ hl, Nat.add_comm (_ / _) 1, count64_add, BitVec.add_assoc]
      rfl
    · rw [hnout, hpad, count64_add, BitVec.add_assoc]
    · rw [List.length_append, hout, hlen, hpad]

/-- A block on the way keeps what a run's states have in common. -/
theorem running_closeBlock {s : State} (hs : Running s) {out nf : List CodePoint} (hnf : nf.length = s.iv.length) :
    Running (closeBlock (pushBlock out nf s)) where
  phase := hs.phase
  room := Nat.zero_lt_of_lt hs.room
  feedback := hnf
  inverse := hs.inverse
  unpadded := hs.unpadded

/-- END at any point of a run. -/
theorem execAll_end_answers {s : State} (hs : Running s) :
    RunAnswers s [] (modeChain s.mode s.fwd s.fb (payloadBlocks (s.buf ++ []) s.iv.length))
      (execAll (payloadCommands []) s) := by
  have hcur := paddedBlock_length hs.room.le
  rw [List.append_nil]
  change RunAnswers s [] _ (execAll [.endRun] s)
  by_cases hbuf : s.buf = []
  · have hend : exec .endRun s = .next (finishRun s) := by rw [exec_endRun_of_run hs.phase, if_pos hbuf]
    rw [execAll_cons _ hend, hbuf, payloadBlocks_nil, modeChain_nil]
    exact .completed _ _ (runEnds_of_empty hs hbuf)
  · have hend := exec_endRun_partial hs.phase (List.length_pos_iff.2 hbuf)
    have hblocks : payloadBlocks s.buf s.iv.length = [paddedBlock s] := payloadBlocks_partial hbuf hs.room
    rw [hblocks]
    cases hb : modeBlock s (paddedBlock s) with
    | undefined f => exact absurd hb (modeBlock_ne_undefined s _ f)
    | fail x lane =>
      rw [processBlock_of_modeBlock_fail _ _ hcur hs.feedback hs.inverse hb] at hend
      rw [execAll_cons _ hend, modeChain_cons_fail [] hb]
      exact .failed _ rfl rfl rfl
    | ok out nf =>
      obtain ⟨hout, -⟩ := modeBlock_lengths hcur hs.feedback hb
      rw [processBlock_of_modeBlock_ok _ _ hcur hs.feedback hs.inverse hb] at hend
      rw [execAll_cons _ hend, modeChain_cons_ok [] hb, modeChain_nil, Option.map_some, List.append_nil]
      exact .completed _ _ (runEnds_of_partial hs hbuf hout)

/-- From any state of a run the rest of the payload and END compute the chain of the text that BUF begins: by induction on
the payload, whose next character is buffered or completes a block. -/
theorem execAll_payload_answers (p : List CodePoint) :
    ∀ s : State, Running s → AllScalar p →
      RunAnswers s p (modeChain s.mode s.fwd s.fb (payloadBlocks (s.buf ++ p) s.iv.length))
        (execAll (payloadCommands p) s) := by
  induction p with
  | nil => exact fun s hs _ => execAll_end_answers hs
  | cons a p ih =>
    intro s hs hp
    obtain ⟨ha, hp⟩ := allScalar_cons.1 hp
    have htext : s.buf ++ a :: p = (s.buf ++ [a]) ++ p := List.append_cons _ _ _
    change RunAnswers s (a :: p) _ (execAll (.data a :: payloadCommands p) s)
    by_cases hlt : s.buf.length + 1 < s.iv.length
    · have hdata : exec (.data a) s = .next { s with buf := s.buf ++ [a], nin := s.nin + 1 } := by
        rw [exec_data_of_run a hs.phase, if_neg (not_not_intro ha), if_pos hlt]
      have hs' : Running { s with buf := s.buf ++ [a], nin := s.nin + 1 } := { hs with room := by simpa using hlt }
      rw [execAll_cons _ hdata, htext]
      exact runAnswers_of_buffered (ih _ hs' hp)
    · have hlen : s.buf.length + 1 = s.iv.length := Nat.le_antisymm hs.room (Nat.le_of_not_lt hlt)
      have hcur : (s.buf ++ [a]).length = s.iv.length := List.length_append.trans hlen
      have hdata := exec_data_completing hs.phase ha hlen
      rw [htext, payloadBlocks_append p (Nat.zero_lt_of_lt hs.room) hcur]
      cases hb : modeBlock s (s.buf ++ [a]) with
      | undefined f => exact absurd hb (modeBlock_ne_undefined s _ f)
      | fail x lane =>
        rw [processBlock_of_modeBlock_fail _ _ hcur hs.feedback hs.inverse hb] at hdata
        rw [execAll_cons _ hdata, modeChain_cons_fail _ hb]
        exact runAnswers_of_failed_block _ p _ x _
      | ok out nf =>
        obtain ⟨hout, hnf⟩ := modeBlock_lengths hcur hs.feedback hb
        rw [processBlock_of_modeBlock_ok _ _ hcur hs.feedback hs.inverse hb] at hdata
        rw [execAll_cons _ hdata, modeChain_cons_ok _ hb]
        exact runAnswers_of_block hcur hout (ih _ (running_closeBlock hs hnf) hp)

/-! ### A run from a loaded state -/

theorem running_beginRun {s : State} {m : Mode} (inv : StateInv s) (hp : s.phase = .load) (hiv : s.iv ≠ [])
    (hm : m = .dec → Injective s.fwd) : Running (beginRun m s) where
  phase := rfl
  room := List.length_pos_iff.2 hiv
  feedback := rfl
  inverse := fun hdec => ⟨inv.table_sorted, hm hdec⟩
  unpadded := by
    obtain ⟨-, -, -, -, -, -, -, -, hnpad⟩ := inv.load hp
    exact hnpad

/-- What R174, R140 and R141 say of a run from the loaded state `s` with the payload `p`, where the chain answers `o`. -/
def RunFollowsChain (s : State) (p : List CodePoint) (o : Option (List CodePoint)) (r : Result) : Prop :=
  (∀ out, o = some out →
      ∃ t, r = .next t ∧ t.phase = .done ∧ t.runOk = true ∧ t.oq = out
        ∧ t.nin = BitVec.ofNat 64 p.length ∧ t.npad = (s.iv.length - p.length % s.iv.length) % s.iv.length
        ∧ t.nblk = BitVec.ofNat 64 ((padText p s.iv.length).length / s.iv.length)
        ∧ t.nout = BitVec.ofNat 64 (padText p s.iv.length).length ∧ out.length = (padText p s.iv.length).length)
    ∧ (o = none → ∃ t, r = .next t ∧ t.phase = .error ∧ t.err = 5 ∧ t.runOk = false)

/-- A loaded state has an empty OQ and counters at 0, so the counts from there on are the counters. -/
theorem runFollowsChain_of_answers {s : State} {m : Mode} {p : List CodePoint} {o : Option (List CodePoint)} {r : Result}
    (inv : StateInv s) (hp : s.phase = .load) (h : RunAnswers (beginRun m s) p o r) : RunFollowsChain s p o r := by
  obtain ⟨-, hok, -, hoq, -, hnin, hnblk, hnout, -⟩ := inv.load hp
  cases h with
  | failed t hphase herr hfail => exact ⟨nofun, fun _ => ⟨t, rfl, hphase, herr, hfail.trans hok⟩⟩
  | completed out t hends =>
    obtain ⟨hphase, hdone, htoq, htnin, htnpad, htnblk, htnout, hlen⟩ := hends
    simp only [beginRun_oq, beginRun_nin, beginRun_buf, beginRun_iv, beginRun_nblk, beginRun_nout, hoq, hnin, hnblk, hnout,
      List.nil_append, zero_add] at htoq htnin htnpad htnblk htnout hlen
    refine ⟨fun out' e => ?_, nofun⟩
    cases e
    exact ⟨t, rfl, hphase, hdone, htoq, htnin, htnpad, htnblk, htnout, hlen⟩

/-- A run in either mode, once its START is accepted. -/
theorem run_follows_chain {s : State} {m : Mode} {i : Instr} {p : List CodePoint} (inv : StateInv s) (hp : s.phase = .load)
    (hiv : s.iv ≠ []) (hm : m = .dec → Injective s.fwd) (hstart : exec i s = .next (beginRun m s)) (hpay : AllScalar p) :
    RunFollowsChain s p (modeChain m s.fwd s.iv (payloadBlocks p s.iv.length)) (execAll (i :: payloadCommands p) s) := by
  rw [execAll_cons _ hstart]
  exact runFollowsChain_of_answers inv hp (execAll_payload_answers p _ (running_beginRun inv hp hiv hm) hpay)

/-- Settles O23: START.ENC takes any table, and the run follows the chain of its mode. -/
theorem encryptionRunIsTheChain : Obligations.EncryptionRunIsTheChain := by
  intro s p inv hp hiv hpay
  have hstart : exec .startEnc s = .next (beginRun .enc s) := by rw [exec_startEnc_of_load hp, if_neg hiv]
  exact run_follows_chain (m := .enc) inv hp hiv nofun hstart hpay

/-- Settles O24: START.DEC accepts an injective table, and the run follows the chain of its mode. -/
theorem decryptionRunIsTheChain : Obligations.DecryptionRunIsTheChain := by
  intro s p inv hp hiv hi hpay
  have hstart := exec_startDec_accepted hp hiv ((ambiguousValue_eq_none_iff inv.table_sorted).2 hi)
  exact run_follows_chain inv hp hiv (fun _ => hi) hstart hpay

/-! ### Decryption undoes encryption -/

/-- XOR with the same feedback twice gives the block back. -/
theorem encXors_encXors : ∀ {fb b : List CodePoint}, fb.length = b.length → encXors fb (encXors fb b) = b
  | [], [], _ => rfl
  | f :: fb, x :: b, h => by
    have htail : encXors fb (encXors fb b) = b := encXors_encXors (Nat.succ.inj h)
    have hhead : f ^^^ (f ^^^ x) = x := by rw [← BitVec.xor_assoc, BitVec.xor_self, BitVec.zero_xor]
    exact congrArg₂ List.cons hhead htail

theorem map_unsubstitute_substitute {t : Table} (hs : TableSorted t) (hp : PermutesItsKeys t) (xs : List CodePoint) :
    (xs.map (substitute t)).map (unsubstitute t) = xs := by
  rw [List.map_map]
  exact (List.map_congr_left fun c _ => unsubstitute_substitute hs hp c).trans (List.map_id xs)

/-- The chain's cases for a first block: the output is the block's and then the rest's. -/
theorem encryptChain_cons_eq_some {t : Table} {fb b out : List CodePoint} {bs : List (List CodePoint)}
    (h : encryptChain t fb (b :: bs) = some out) :
    AllScalar (encXors fb b) ∧ ∃ rest, encryptChain t ((encXors fb b).map (substitute t)) bs = some rest
      ∧ out = (encXors fb b).map (substitute t) ++ rest := by
  rw [encryptChain_cons] at h
  split_ifs at h with hx
  obtain ⟨rest, hrest, rfl⟩ := Option.map_eq_some_iff.1 h
  exact ⟨all_isScalar_iff.1 hx, rest, hrest, rfl⟩

theorem encryptChain_scalar {t : Table} (ht : AllScalar (t.map Prod.snd)) {blocks : List (List CodePoint)} :
    ∀ {fb out : List CodePoint}, encryptChain t fb blocks = some out → AllScalar out := by
  induction blocks with
  | nil =>
    intro fb out h
    cases h
    exact allScalar_nil
  | cons b bs ih =>
    intro fb out h
    obtain ⟨hx, rest, hrest, rfl⟩ := encryptChain_cons_eq_some h
    refine allScalar_append.2 ⟨fun c hc => ?_, ih hrest⟩
    obtain ⟨x, hmem, rfl⟩ := List.mem_map.1 hc
    exact substitute_scalar ht (hx x hmem)

/-- The decryption of the blocks of an encryption's output gives the blocks back: `F ^ Unsub(Sub(F ^ B)) = B`, and the two
chains have the same feedback, the ciphertext block. -/
theorem decryptChain_encryptChain {t : Table} (hs : TableSorted t) (hp : PermutesItsKeys t) {l : Nat} (hl : 0 < l)
    {blocks : List (List CodePoint)} :
    ∀ {fb out : List CodePoint}, fb.length = l → (∀ b ∈ blocks, b.length = l ∧ AllScalar b) →
      encryptChain t fb blocks = some out → decryptChain t fb (payloadBlocks out l) = some blocks.flatten := by
  induction blocks with
  | nil =>
    intro fb out _ _ h
    cases h
    rw [payloadBlocks_nil]
    rfl
  | cons b bs ih =>
    intro fb out hfb hblocks h
    obtain ⟨⟨hb, hsb⟩, hbs⟩ := List.forall_mem_cons.1 hblocks
    obtain ⟨-, rest, hrest, rfl⟩ := encryptChain_cons_eq_some h
    have hc : ((encXors fb b).map (substitute t)).length = l := by simp [hfb, hb]
    have hx : decXors t fb ((encXors fb b).map (substitute t)) = b := by
      rw [decXors_eq_encXors, map_unsubstitute_substitute hs hp, encXors_encXors (hfb.trans hb.symm)]
    rw [payloadBlocks_append rest hl hc, decryptChain_cons, hx, if_pos (all_isScalar_iff.2 hsb), ih hc hbs hrest,
      Option.map_some, List.flatten_cons]

/-- Settles O22: lane by lane Unsub undoes Sub, and the two runs are the two reference chains. -/
theorem decryptionUndoesEncryption : Obligations.DecryptionUndoesEncryption := by
  refine ⟨fun t hs hp c => ⟨unsubstitute_substitute hs hp c, substitute_unsubstitute hs hp c⟩, ?_,
    fun t k v => substitute_of_value_no_key⟩
  intro s t p inv hp hiv hperm hpay hrun hdone
  have hl : 0 < s.iv.length := List.length_pos_iff.2 hiv
  obtain ⟨hok, hfail⟩ := encryptionRunIsTheChain s p inv hp hiv hpay
  cases hc : encryptChain s.fwd s.iv (payloadBlocks p s.iv.length) with
  | none =>
    obtain ⟨u, hu, herr, -⟩ := hfail hc
    cases hu.symm.trans hrun
    simp [hdone] at herr
  | some out =>
    obtain ⟨u, hu, -, -, hoq, -⟩ := hok out hc
    cases hu.symm.trans hrun
    rw [hoq]
    have hplain := decryptChain_encryptChain inv.table_sorted hperm hl rfl (payloadBlocks_wf hl p hpay) hc
    rw [payloadBlocks_flatten hl] at hplain
    obtain ⟨hdec, -⟩ := decryptionRunIsTheChain s out inv hp hiv hperm.left (encryptChain_scalar inv.scalar_values hc)
    obtain ⟨v, hv, hvdone, -, hvoq, -⟩ := hdec _ hplain
    exact ⟨v, hv, hvdone, hvoq⟩

end Sys2Proof.Machine
end

section
/-!
PROOFS. The pseudo-instructions ENCRYPT and DECRYPT (30_encoding.md R93): the table and the IV that their loading commands
leave after CLEAR.
-/

namespace Sys2Proof.Machine

/-- FWD after the KEYLINEs of `pairs`, from the table `t`. -/
def loadPairs (t : Table) (pairs : List (CodePoint × CodePoint)) : Table :=
  pairs.foldl (fun u q => tableInsert u q.1 q.2) t

theorem loadPairs_sorted {t : Table} (hs : TableSorted t) (pairs : List (CodePoint × CodePoint)) :
    TableSorted (loadPairs t pairs) := by
  induction pairs generalizing t with
  | nil => exact hs
  | cons q pairs ih => exact ih (tableInsert_sorted hs q.1 q.2)

/-- The last pair of a repeated key counts: the induction is on the pairs from the last one back. -/
theorem tableLookup_loadPairs (pairs : List (CodePoint × CodePoint)) (k : CodePoint) :
    tableLookup (loadPairs [] pairs) k = (pairs.reverse.find? fun q => q.1 = k).map Prod.snd := by
  induction pairs using List.reverseRecOn with
  | nil => rfl
  | append_singleton pairs q ih =>
    have hload : loadPairs [] (pairs ++ [q]) = tableInsert (loadPairs [] pairs) q.1 q.2 := by
      rw [loadPairs, List.foldl_append]
      rfl
    rw [hload, tableLookup_insert, List.reverse_append, List.reverse_singleton, List.singleton_append, List.find?_cons, ih]
    by_cases hk : k = q.1
    · simp [hk]
    · simp [hk, Ne.symm hk]

/-- The KEYLINEs of pairs that fit into the table are all accepted: each adds at most one key. -/
theorem execAll_keyPairs (pairs : List (CodePoint × CodePoint)) :
    ∀ s : State, s.phase = .load → TableSorted s.fwd → AllScalar (pairs.map Prod.fst) → AllScalar (pairs.map Prod.snd) →
      s.fwd.length + pairs.length ≤ s.params.tmax →
      execAll (pairs.map fun q => keyPair q.1 q.2) s = .next { s with fwd := loadPairs s.fwd pairs } := by
  induction pairs with
  | nil => exact fun _ _ _ _ _ _ => rfl
  | cons q pairs ih =>
    intro s hp hs hkeys hvalues hroom
    obtain ⟨ha, hkeys⟩ := allScalar_cons.1 hkeys
    obtain ⟨hb, hvalues⟩ := allScalar_cons.1 hvalues
    rw [List.length_cons] at hroom
    have hkey : exec (keyPair q.1 q.2) s = .next { s with fwd := tableInsert s.fwd q.1 q.2 } :=
      exec_keyline_accepted hp ha hb fun ⟨_, hfull⟩ => by omega
    have hlen : (tableInsert s.fwd q.1 q.2).length + pairs.length ≤ s.params.tmax := by
      rw [tableInsert_length hs]
      split_ifs <;> omega
    rw [List.map_cons, execAll_cons _ hkey]
    exact ih { s with fwd := tableInsert s.fwd q.1 q.2 } hp (tableInsert_sorted hs _ _) hkeys hvalues hlen

theorem execAll_ivchars (v : List CodePoint) :
    ∀ s : State, s.phase = .load → AllScalar v → s.iv.length + v.length ≤ s.params.lmax →
      execAll (v.map .ivchar) s = .next { s with iv := s.iv ++ v } := by
  induction v with
  | nil =>
    intro s _ _ _
    rw [List.append_nil]
    rfl
  | cons c v ih =>
    intro s hp hv hroom
    obtain ⟨hc, hv⟩ := allScalar_cons.1 hv
    rw [List.length_cons] at hroom
    have hchar := exec_ivchar_accepted hp hc (show s.iv.length ≠ s.params.lmax by omega)
    have hlen : (s.iv ++ [c]).length + v.length ≤ s.params.lmax := by
      rw [List.length_append, List.length_singleton]
      omega
    rw [List.map_cons, execAll_cons _ hchar, ih { s with iv := s.iv ++ [c] } hp hv hlen, List.append_cons s.iv c v]

/-- CLEAR, the pairs and the IV, from any state. -/
theorem execAll_loading (s : State) {pairs : List (CodePoint × CodePoint)} {v : List CodePoint}
    (hkeys : AllScalar (pairs.map Prod.fst)) (hvalues : AllScalar (pairs.map Prod.snd)) (hv : AllScalar v)
    (htmax : pairs.length ≤ s.params.tmax) (hlmax : v.length ≤ s.params.lmax) :
    execAll (.clear :: pairs.map (fun q => keyPair q.1 q.2) ++ v.map .ivchar) s
      = .next { clearUnit s with iv := v, fwd := loadPairs [] pairs } := by
  have hclear : exec .clear s = .next (clearUnit s) := rfl
  have hpairs := execAll_keyPairs pairs (clearUnit s) rfl List.Pairwise.nil hkeys hvalues (by simpa using htmax)
  rw [List.cons_append, execAll_cons _ hclear, execAll_append _ hpairs]
  exact execAll_ivchars v _ rfl hv (by simpa using hlmax)

/-- Settles O25: both expansions begin with the same loading commands, and go on from the state these leave. -/
theorem pseudoCommandsLoadThenRun : Obligations.PseudoCommandsLoadThenRun := by
  intro s pairs v p hkeys hvalues hv htmax hlmax
  have hload := execAll_loading s hkeys hvalues hv htmax hlmax
  refine ⟨loadPairs [] pairs, loadPairs_sorted List.Pairwise.nil pairs, tableLookup_loadPairs pairs, ?_, ?_⟩
  · rw [encryptCommands, List.append_assoc, execAll_append _ hload]
  · rw [decryptCommands, List.append_assoc, execAll_append _ hload]

end Sys2Proof.Machine
end
